-- ==== Sys2Proof/Word.lean ====
section
/-! DEFINITION. The words of ECOJI-CORE: the fixed widths of 00_scope.md rules R7 and R8. -/

namespace Sys2Proof

/-- One byte of the byte stream, `BYTE_W` = 8 (R7). -/
abbrev Byte := BitVec 8

/-- A whole symbol, an opaque `SYM_W` = 64-bit token compared only for equality (R8, R13; log entry
9). -/
abbrev Token := BitVec 64

/-- A command word, `CMD_W` = 72 (R8, R51). -/
abbrev CmdWord := BitVec 72

/-- A response word, `RSP_W` = 72 (R8, R54). -/
abbrev RspWord := BitVec 72

/-- An accumulator value, `ACC_W` = 16 (R8, R18, R21). -/
abbrev Acc := BitVec 16

/-- An accumulator count, `CNT_W` = 5 (R8, R19, R22). -/
abbrev Cnt := BitVec 5

/-- A decode position, `POS_W` = 32, counting modulo 2^32 (R8, R24). -/
abbrev Pos := BitVec 32

end Sys2Proof
end

