-- ==== Sys2Proof/Syntax.lean ====
section
/-! DEFINITION. The commands of ECOJI-CORE: one constructor per row of spec/opcode_table.json
(30_encoding.md rule R52), the illegal-word row included. -/

namespace Sys2Proof

/-- The seven registers `RD` can name (10_state.md rule R34). Numbers 7 to 15 name no register. -/
inductive Reg where
  | eacc
  | ecnt
  | dacc
  | dcnt
  | dpos
  | dst
  | depos
deriving DecidableEq, Repr

/-- A command. -/
inductive Instr where
  /-- `ENC.PUSH b`: one input byte (R66). -/
  | encPush (b : Byte)
  /-- `ENC.END`: end of the encode stream (R69). -/
  | encEnd
  /-- `DEC.PUSH s`: one symbol token (R78). -/
  | decPush (s : Token)
  /-- `DEC.END`: end of the decode stream (R84). -/
  | decEnd
  /-- `RIDX.LOOKUP s`: query of the reverse index (R74). -/
  | ridxLookup (s : Token)
  /-- `RD n`: read of a register (R89). -/
  | rd (r : Reg)
  /-- The table's `ILLEGAL` row: a word that is none of the six commands (R59, R91). It keeps its
  word, so that no bit of a command is lost in decoding. -/
  | illegal (w : CmdWord)
deriving DecidableEq, Repr

/-- The rows of spec/opcode_table.json. -/
inductive Row where
  | encPush
  | encEnd
  | decPush
  | decEnd
  | ridxLookup
  | rd
  | illegal
deriving DecidableEq, Repr

/-- The row of the opcode table a command belongs to. -/
def Instr.row : Instr → Row
  | .encPush _ => .encPush
  | .encEnd => .encEnd
  | .decPush _ => .decPush
  | .decEnd => .decEnd
  | .ridxLookup _ => .ridxLookup
  | .rd _ => .rd
  | .illegal _ => .illegal

end Sys2Proof
end

