-- ==== Sys2Proof/Decode.lean ====
section
/-! DEFINITION. The decoder of 30_encoding.md rule R62, total on every 72-bit word, then the encoder
(the inverse direction of R62), and the mask and match numbers of spec/opcode_table.json. -/

namespace Sys2Proof

/-- Register numbers of R34; 7 to 15 name no register (R90). -/
def Reg.ofNumber (n : BitVec 4) : Option Reg :=
  match n.toNat with
  | 0 => some .eacc
  | 1 => some .ecnt
  | 2 => some .dacc
  | 3 => some .dcnt
  | 4 => some .dpos
  | 5 => some .dst
  | 6 => some .depos
  | _ => none

/-- The register number of R34. -/
def Reg.number : Reg → BitVec 4
  | .eacc => 0
  | .ecnt => 1
  | .dacc => 2
  | .dcnt => 3
  | .dpos => 4
  | .dst => 5
  | .depos => 6

/-- `OPC`, bits 7:0 of a command word (R51). -/
def opcOf (c : CmdWord) : BitVec 8 := c.extractLsb' 0 8

/-- `ARG`, bits 71:8 of a command word (R51). -/
def argOf (c : CmdWord) : BitVec 64 := c.extractLsb' 8 64

/-- The decoding procedure of R62, clause by clause. A word that no clause takes is `illegal` and
keeps all its bits. -/
def decode (c : CmdWord) : Instr :=
  let opc := opcOf c
  let arg := argOf c
  if opc = 0x01#8 ∧ arg.extractLsb' 8 56 = 0#56 then .encPush (arg.extractLsb' 0 8)
  else if opc = 0x02#8 ∧ arg = 0#64 then .encEnd
  else if opc = 0x03#8 then .decPush arg
  else if opc = 0x04#8 ∧ arg = 0#64 then .decEnd
  else if opc = 0x05#8 then .ridxLookup arg
  else if opc = 0x06#8 ∧ arg.extractLsb' 4 60 = 0#60 then
    match Reg.ofNumber (arg.extractLsb' 0 4) with
    | some r => .rd r
    | none => .illegal c
  else .illegal c

/-- `{zext_64(operand), OPC}` (R62). -/
def cmdWord (arg : BitVec 64) (opc : BitVec 8) : CmdWord := arg ++ opc

/-- The word of a command (R62, R52, R53). -/
def encode : Instr → CmdWord
  | .encPush b => cmdWord (b.setWidth 64) 0x01
  | .encEnd => cmdWord 0 0x02
  | .decPush s => cmdWord s 0x03
  | .decEnd => cmdWord 0 0x04
  | .ridxLookup s => cmdWord s 0x05
  | .rd r => cmdWord (r.number.setWidth 64) 0x06
  | .illegal w => w

/-- One line of spec/opcode_table.json: the words of a row, as a mask and the value the masked word
has. -/
structure OpcodeRow where
  row : Row
  value : CmdWord
  mask : CmdWord
deriving DecidableEq, Repr

/-- spec/opcode_table.json, its `match` and `mask` numbers as they stand there; `RD` has the three
`match_alternatives` of its row. `ILLEGAL` has no mask there: it is every other word. -/
def opcodeTable : List OpcodeRow :=
  [ ⟨.encPush, 0x000000000000000001, 0xFFFFFFFFFFFFFF00FF⟩,
    ⟨.encEnd, 0x000000000000000002, 0xFFFFFFFFFFFFFFFFFF⟩,
    ⟨.decPush, 0x000000000000000003, 0x0000000000000000FF⟩,
    ⟨.decEnd, 0x000000000000000004, 0xFFFFFFFFFFFFFFFFFF⟩,
    ⟨.ridxLookup, 0x000000000000000005, 0x0000000000000000FF⟩,
    ⟨.rd, 0x000000000000000006, 0xFFFFFFFFFFFFFFFCFF⟩,
    ⟨.rd, 0x000000000000000406, 0xFFFFFFFFFFFFFFFEFF⟩,
    ⟨.rd, 0x000000000000000606, 0xFFFFFFFFFFFFFFFFFF⟩ ]

/-- A word belongs to a line of the table. -/
def OpcodeRow.takes (o : OpcodeRow) (w : CmdWord) : Bool := w &&& o.mask == o.value

/-- What the decoder reads from a table word `w` of `nbits` bits, bit 0 the least significant bit of
the command word; the bits above `nbits` are 0. A number that does not fit in `nbits` bits, or more
than the one command length of 72 bits (R51), is no command word (log entry 13). -/
def decodeTableWord (nbits w : Nat) : Option Instr :=
  if nbits ≤ 72 ∧ w < 2 ^ nbits then some (decode (BitVec.ofNat 72 w)) else none

end Sys2Proof
end

