-- ==== Sys2Proof/Config.lean ====
section
/-! DEFINITION. What is fixed for the life of a block: the classes and symbol codes of 00_scope.md
rules R10 and R13, and the one open parameter `TABLE` of rule R9 with the invariants R28 to R30. -/

namespace Sys2Proof

/-- The five alphabets (R10). `pad4` is the spec's answer to the 8-bit tail (D4). -/
inductive Cls where
  | regular
  | pad1
  | pad2
  | pad3
  | pad4
deriving DecidableEq, Repr

/-- A VALID symbol code (R13): a class together with an index of exactly that class's width, so an
index at or above `SIZE(cls)` cannot be written down. 1024 + 4 + 16 + 64 + 256 = 1364 values. -/
inductive SymCode where
  | regular (idx : BitVec 10)
  | pad1 (idx : BitVec 2)
  | pad2 (idx : BitVec 4)
  | pad3 (idx : BitVec 6)
  | pad4 (idx : BitVec 8)
deriving DecidableEq, Repr

/-- `TABLE` (R9): the five alphabets, end to end in the order of their class codes, as plain data.
`size` is totality on the valid codes (R28) and `distinct` is injectivity over all of them (R29),
the two facts the spec takes as hypotheses on the table; a table without them is outside the spec
(93_implementation_defined.md U2) and cannot be written down here (log entry 2). -/
structure Table where
  symbols : List Token
  size : symbols.length = 1364
  distinct : symbols.Nodup
deriving DecidableEq, Repr

theorem Table.ofNat_range_nodup : ((List.range 1364).map (BitVec.ofNat 64)).Nodup := by
  refine List.Nodup.map_on ?_ List.nodup_range
  intro x hx y hy h
  have hn := congrArg BitVec.toNat h
  simp only [List.mem_range, BitVec.toNat_ofNat] at hx hy hn
  omega

/-- SOME table, which shows only that the two invariants can be met together. The model never uses
its contents: `Config.tableOf` below has no body that a proof could unfold. -/
def Table.inhabitant : Table where
  symbols := (List.range 1364).map (BitVec.ofNat 64)
  size := by simp
  distinct := Table.ofNat_range_nodup

/-- The table the table provider supplied (R9, R125): an UNINTERPRETED constant, no body. Nothing in
Lean can evaluate it or prove which token sits at which code (D6, log entry 2). -/
opaque Config.tableOf [Inhabited Table] : Table

/-- The contents of `TABLE` as `State.reset` finds them. -/
def Config.table : Table := @Config.tableOf ⟨Table.inhabitant⟩

end Sys2Proof
end

