-- ==== Sys2Proof/Machine/State.lean ====
section
/-! DEFINITION. The state of a block as plain data: the seven registers of 10_state.md rules R17 to
R27, the configuration parameter `TABLE`, and what stands at the block's ports (30_encoding.md rule
R49). -/

namespace Sys2Proof.Machine

/-- One event at the two inputs of the block (R49): a command word on the command port, or one
assertion of the reset input up to its release, during which no command is accepted (R121). -/
inductive HostInput where
  | command (w : CmdWord)
  | reset
deriving DecidableEq, Repr

/-- The machine. The first seven fields are all the registers there are (R17, R32, R34). `table` is
the configuration parameter of R9, carried along unchanged and never written (R31, log entry 2).
`inputs` and `rsps` are the model's picture of the ports: what the host has yet to present, next
event first, and every response word so far, oldest first (R45, R50, log entry 3). -/
structure State where
  /-- `EACC`, register 0 (R18). -/
  eacc : Acc
  /-- `ECNT`, register 1 (R19). -/
  ecnt : Cnt
  /-- `DACC`, register 2 (R21). -/
  dacc : Acc
  /-- `DCNT`, register 3 (R22). -/
  dcnt : Cnt
  /-- `DPOS`, register 4 (R24). -/
  dpos : Pos
  /-- `DST`, register 5: `PHASE` in bits 1:0, `ERR` in bits 4:2 (R25). -/
  dst : BitVec 5
  /-- `DEPOS`, register 6 (R26). -/
  depos : Pos
  /-- `TABLE` (R9, R28 to R31). -/
  table : Table
  /-- The command port and the reset input (R49, R121). -/
  inputs : List HostInput
  /-- The response port (R49, R50). -/
  rsps : List RspWord
deriving DecidableEq, Repr

/-- Faults: there are none. Every command is accepted and answered, an error of the codec or of the
command port is a response and not a stop (R14, R50, R105), and no access can fail (R44). Nothing
raises a fault: safe (log entry 11). -/
inductive Fault where
deriving DecidableEq, Repr

/-- Why a step has no meaning. -/
inductive Refusal where
  /-- Raised by an arm of `exec` whose instruction has no meaning yet; no arm is so. Safe. -/
  | notModelled (mnemonic : String)
  /-- Raised by every command's meaning, in a register state that the block can never be in: one that
  breaks the invariants R20, R23 or R27. 93_implementation_defined.md U8 asks for exactly this: such
  a state must not be given a meaning (log entry 4). Safe. -/
  | unreachableState
deriving DecidableEq, Repr

/-- The state right after reset: all seven registers 0 (R34, R122), the table as the table provider
supplied it (R125), and nothing yet at the ports. -/
def State.reset : State where
  eacc := 0
  ecnt := 0
  dacc := 0
  dcnt := 0
  dpos := 0
  dst := 0
  depos := 0
  table := Config.table
  inputs := []
  rsps := []

end Sys2Proof.Machine
end

