-- ==== Sys2Proof/Machine/Operands.lean ====
section
/-! DEFINITION. Bit fields (00_scope.md rule R11), symbol codes (R10, R13) and the reads of the two
table spaces, `FWD` and `REV` (20_memory.md rules R35 to R37, 10_state.md rules R28 to R30). -/

namespace Sys2Proof.Machine

/-- `v[lo + len - 1 : lo]` of R11 on an unsigned number; with `len = 0` the empty field, 0. -/
def field (v lo len : Nat) : Nat := (v >>> lo) % 2 ^ len

/-- `(v << w) | x` of R11: `x` appended below the bits of `v`, no bit lost. -/
def shiftIn (v w x : Nat) : Nat := (v <<< w) ||| x

/-- The numeric class code `cls` (R10, D10). -/
def clsCode : Cls → BitVec 3
  | .regular => 0
  | .pad1 => 1
  | .pad2 => 2
  | .pad3 => 3
  | .pad4 => 4

/-- `W(cls)`, the width of a class in bits (R7, R10). -/
def clsWidth : Cls → Nat
  | .regular => 10
  | .pad1 => 2
  | .pad2 => 4
  | .pad3 => 6
  | .pad4 => 8

/-- `SIZE(cls)`, the number of symbols of a class (R10). -/
def clsSize (c : Cls) : Nat := 2 ^ clsWidth c

/-- The class of a symbol code. -/
def codeCls : SymCode → Cls
  | .regular _ => .regular
  | .pad1 _ => .pad1
  | .pad2 _ => .pad2
  | .pad3 _ => .pad3
  | .pad4 _ => .pad4

/-- The index of a symbol code, as the 10-bit field `idx` of R13. -/
def codeIdx : SymCode → BitVec 10
  | .regular i => i
  | .pad1 i => i.setWidth 10
  | .pad2 i => i.setWidth 10
  | .pad3 i => i.setWidth 10
  | .pad4 i => i.setWidth 10

/-- The symbol code `(cls, idx)`, where it is valid: `idx < SIZE(cls)` (R13). -/
def codeOf (c : Cls) (idx : Nat) : Option SymCode :=
  if idx < clsSize c then
    match c with
    | .regular => some (.regular (BitVec.ofNat 10 idx))
    | .pad1 => some (.pad1 (BitVec.ofNat 2 idx))
    | .pad2 => some (.pad2 (BitVec.ofNat 4 idx))
    | .pad3 => some (.pad3 (BitVec.ofNat 6 idx))
    | .pad4 => some (.pad4 (BitVec.ofNat 8 idx))
  else none

/-- The 13-bit value `SC = {cls[2:0], idx[9:0]}` (R13). -/
def codeBits (c : SymCode) : BitVec 13 := clsCode (codeCls c) ++ codeIdx c

/-- Whether a code belongs to a padding alphabet, class 1 to 4 (R10). -/
def isPad (c : SymCode) : Bool :=
  match c with
  | .regular _ => false
  | .pad1 _ | .pad2 _ | .pad3 _ | .pad4 _ => true

/-- Where a class begins in `Table.symbols`: the alphabets lie end to end in class order. -/
def clsBase : Cls → Nat
  | .regular => 0
  | .pad1 => 1024
  | .pad2 => 1028
  | .pad3 => 1044
  | .pad4 => 1108

/-- Where the token of a code lies in `Table.symbols`. -/
def codePlace (c : SymCode) : Nat := clsBase (codeCls c) + (codeIdx c).toNat

/-- The code whose token lies at a place of `Table.symbols`. -/
def codeAtPlace (p : Nat) : Option SymCode :=
  if p < 1024 then codeOf .regular p
  else if p < 1028 then codeOf .pad1 (p - 1024)
  else if p < 1044 then codeOf .pad2 (p - 1028)
  else if p < 1108 then codeOf .pad3 (p - 1044)
  else codeOf .pad4 (p - 1108)

theorem codePlace_lt (c : SymCode) : codePlace c < 1364 := by
  cases c <;> rename_i i <;> simp only [codePlace, clsBase, codeCls, codeIdx, BitVec.toNat_setWidth]
    <;> have := i.isLt <;> omega

/-- `FWD(cls, idx)`, the forward read (R28, R36): total on the valid symbol codes. -/
def fwd (t : Table) (c : SymCode) : Token :=
  t.symbols[codePlace c]'(by rw [t.size]; exact codePlace_lt c)

/-- `REV(sym)`, the reverse read (R30, R37): `some c` is `hit`, `none` is `miss`. Defined for every
token and comparing the whole of it (R76); how the index is built is not architectural (R33, R75). -/
def rev (t : Table) (s : Token) : Option SymCode :=
  match t.symbols.idxOf? s with
  | some p => codeAtPlace p
  | none => none

/-- The tail symbol's code, by the tail's width alone, index the residual bits as they stand (R69,
R70): 2, 4, 6, 8 bits select `Pad1` to `Pad4`; 0 bits, no tail symbol. -/
def tailCode (w r : Nat) : Option SymCode :=
  match w with
  | 2 => codeOf .pad1 r
  | 4 => codeOf .pad2 r
  | 6 => codeOf .pad3 r
  | 8 => codeOf .pad4 r
  | _ => none

end Sys2Proof.Machine
end

