-- ==== Sys2Proof/Machine/Flags.lean ====
section
/-! DEFINITION. The only flag-like state of the block, `DST` (10_state.md rules R25 and R32): its
fields, the codes of the decode errors, and the status codes of 30_encoding.md rule R55. -/

namespace Sys2Proof.Machine

/-- `PHASE` = 0: no padding symbol and no error so far (R25). -/
def phaseRun : BitVec 2 := 0

/-- `PHASE` = 1: a padding symbol has been accepted (R25). -/
def phasePadded : BitVec 2 := 1

/-- `PHASE` = 2: a `DEC.PUSH` raised an error (R25). -/
def phaseFailed : BitVec 2 := 2

/-- `DST.PHASE`, bits 1:0 (R25). -/
def State.phase (s : State) : BitVec 2 := s.dst.extractLsb' 0 2

/-- `DST.ERR`, bits 4:2 (R25). -/
def State.err (s : State) : BitVec 3 := s.dst.extractLsb' 2 3

/-- A `DST` value from its two fields, `{ERR[2:0], PHASE[1:0]}` (R25, R89). -/
def dstOf (err : BitVec 3) (phase : BitVec 2) : BitVec 5 := err ++ phase

/-- `DST.PHASE <- p`: the `ERR` field stays (R12). -/
def State.setPhase (p : BitVec 2) (s : State) : State := { s with dst := dstOf s.err p }

/-- The status of a response (R55). -/
inductive Status where
  | ok
  | unknownSymbol
  | malformedPadding
  | truncatedStream
  | illegalCommand
deriving DecidableEq, Repr

/-- The `STATUS` code of R55. -/
def statusCode : Status → BitVec 4
  | .ok => 0
  | .unknownSymbol => 1
  | .malformedPadding => 2
  | .truncatedStream => 3
  | .illegalCommand => 4

/-- The errors that `DEC.PUSH` raises and `DST.ERR` can hold (R25, R105). -/
inductive DecError where
  | unknownSymbol
  | malformedPadding
deriving DecidableEq, Repr

/-- `code(E)` of R112, as `DST.ERR` holds it (R25). -/
def errCode : DecError → BitVec 3
  | .unknownSymbol => 1
  | .malformedPadding => 2

/-- The status a raised error answers with (R105, R112). -/
def errStatus : DecError → Status
  | .unknownSymbol => .unknownSymbol
  | .malformedPadding => .malformedPadding

end Sys2Proof.Machine
end

