-- ==== Sys2Proof/Machine/Ops.lean ====
section
/-! DEFINITION. The operations every command is written over: the reachable register states
(10_state.md rules R20, R23, R27), responding (30_encoding.md rules R54 to R58), raising a decode
error and returning from it (60_exceptions.md rules R112 and R114), reading a register (R38), the
reset input (R121) and taking the next event from the ports (R45). -/

namespace Sys2Proof.Machine

/-- The encode invariant (R20): `ECNT` is 0, 2, 4, 6 or 8 and no bit of `EACC` stands at or above
it. -/
abbrev State.EncInv (s : State) : Prop :=
  s.ecnt.toNat % 2 = 0 ∧ s.ecnt.toNat ≤ 8 ∧ s.eacc.toNat < 2 ^ s.ecnt.toNat

/-- The decode invariant (R23): `DCNT` is 0, 2, 4 or 6, no bit of `DACC` stands at or above it, and
in `PADDED` both are 0. -/
abbrev State.DecInv (s : State) : Prop :=
  s.dcnt.toNat % 2 = 0 ∧ s.dcnt.toNat ≤ 6 ∧ s.dacc.toNat < 2 ^ s.dcnt.toNat ∧
    (s.phase = phasePadded → s.dcnt = 0 ∧ s.dacc = 0)

/-- The status invariant (R25, R27): `PHASE` is never 3, `ERR` is 0, 1 or 2, `FAILED` exactly when an
error is recorded, and `DEPOS` is 0 outside `FAILED`. -/
abbrev State.StatusInv (s : State) : Prop :=
  s.phase.toNat ≤ 2 ∧ s.err.toNat ≤ 2 ∧ (s.phase = phaseFailed ↔ s.err ≠ 0) ∧
    (s.phase ≠ phaseFailed → s.depos = 0)

/-- A register state the block can be in: R20, R23 and R27 together. -/
abbrev State.Legal (s : State) : Prop := s.EncInv ∧ s.DecInv ∧ s.StatusInv

/-- Give a meaning to legal register states only: 93_implementation_defined.md U8 asks a model whose
state can express the unreachable ones to refuse a step from them (log entry 4). -/
def whenLegal (s : State) (o : Host.Outcome State Fault Refusal) :
    Host.Outcome State Fault Refusal :=
  if s.Legal then o else .refused .unreachableState

/-- A response word, `{DATA, 0b00, N, STATUS}` (R54). -/
def rspWord (status : BitVec 4) (n : BitVec 2) (data : BitVec 64) : RspWord :=
  data ++ (0#2 ++ (n ++ status))

/-- `STATUS`, bits 3:0 of a response (R54). -/
def rspStatus (r : RspWord) : BitVec 4 := r.extractLsb' 0 4

/-- `N`, bits 5:4 of a response (R54). -/
def rspN (r : RspWord) : BitVec 2 := r.extractLsb' 4 2

/-- `DATA`, bits 71:8 of a response (R54). -/
def rspData (r : RspWord) : BitVec 64 := r.extractLsb' 8 64

/-- `respond(status, n, data)`: the one response word of the step leaves on the response port, after
those of the earlier steps (R12, R45, R50, R54). -/
def State.respond (status : BitVec 4) (n : BitVec 2) (data : BitVec 64) (s : State) : State :=
  { s with rsps := s.rsps ++ [rspWord status n data] }

/-- `emit_sym(s)`: `OK`, one item, the token (R12, R56). -/
def State.emitSym (tok : Token) (s : State) : State := s.respond (statusCode .ok) 1 tok

/-- The payload of `emit_bytes`: the byte that comes first in the output stream lowest (R40, R57). -/
def byteData : List Byte → BitVec 64
  | [] => 0
  | b :: bs => (byteData bs <<< 8) ||| b.setWidth 64

/-- `emit_bytes([b0, b1, ...])`: `OK`, as many items as there are bytes (R12, R57). -/
def State.emitBytes (bs : List Byte) (s : State) : State :=
  s.respond (statusCode .ok) (BitVec.ofNat 2 bs.length) (byteData bs)

/-- `respond(OK, 0, 0)`. -/
def State.respondOk (s : State) : State := s.respond (statusCode .ok) 0 0

/-- TAKING AN ERROR: `raise E(DPOS)` (R112). `PHASE` becomes `FAILED`, `ERR` the code of the error,
`DEPOS` the current `DPOS`, and the response carries both; nothing else is written, no byte is
emitted and no control is transferred. -/
def State.raise (e : DecError) (s : State) : State :=
  { s with dst := dstOf (errCode e) phaseFailed, depos := s.dpos }.respond
    (statusCode (errStatus e)) 0 (s.dpos.setWidth 64)

/-- The answer of a stream that has already failed: the recorded error and its position once more,
no register written (R83, R84). -/
def State.repeatError (s : State) : State :=
  s.respond (s.err.setWidth 4) 0 (s.depos.setWidth 64)

/-- RETURN FROM AN ERROR, and the end of every decode stream: all decode registers back to their
reset values (R84, R114). -/
def State.clearDec (s : State) : State :=
  { s with dacc := 0, dcnt := 0, dpos := 0, dst := 0, depos := 0 }

/-- The end of an encode stream: both encode registers back to their reset values (R69). -/
def State.clearEnc (s : State) : State := { s with eacc := 0, ecnt := 0 }

/-- The reset input (R121, R122, R124): every register 0, any stream abandoned, no response, the
tables untouched (R31) and the output already given not recalled; in any state (log entry 10). -/
def State.resetRegs (s : State) : State := s.clearEnc.clearDec

/-- A register, zero-extended to 64 bits (R38, R89). -/
def readReg (r : Reg) (s : State) : BitVec 64 :=
  match r with
  | .eacc => s.eacc.setWidth 64
  | .ecnt => s.ecnt.setWidth 64
  | .dacc => s.dacc.setWidth 64
  | .dcnt => s.dcnt.setWidth 64
  | .dpos => s.dpos.setWidth 64
  | .dst => s.dst.setWidth 64
  | .depos => s.depos.setWidth 64

/-- The decode position after one accepted symbol, modulo 2^32 (R24, D18). -/
def nextPos (p : Pos) : Pos := p + 1

/-- The event the step takes from the input ports, and the state with it taken (R14, R45). -/
def State.accept (s : State) : Option (HostInput × State) :=
  match s.inputs with
  | [] => none
  | i :: rest => some (i, { s with inputs := rest })

/-- The host puts a command word on the command port, ahead of everything it has yet to present. -/
def State.present (w : CmdWord) (s : State) : State :=
  { s with inputs := .command w :: s.inputs }

end Sys2Proof.Machine
end

