-- ==== Sys2Proof/Machine/Decoder.lean ====
section
/-! DEFINITION. The bit unpacker and the decoder: `DEC.PUSH` and `DEC.END` (42_decoder.md). -/

namespace Sys2Proof.Machine

/-- `DEC.PUSH`, `Regular` arm (R79): ten bits in; one byte out, or two when the sixteenth bit
arrives. -/
def State.pushRegular (idx : BitVec 10) (s : State) : State :=
  let a := shiftIn s.dacc.toNat 10 idx.toNat
  let c := s.dcnt.toNat + 10
  if c = 16 then
    { s with dacc := 0, dcnt := 0, dpos := nextPos s.dpos }.emitBytes
      [BitVec.ofNat 8 (field a 8 8), BitVec.ofNat 8 (field a 0 8)]
  else
    { s with
      dacc := BitVec.ofNat 16 (field a 0 (c - 8))
      dcnt := BitVec.ofNat 5 (c - 8)
      dpos := nextPos s.dpos }.emitBytes [BitVec.ofNat 8 (field a (c - 8) 8)]

/-- `DEC.PUSH`, padding arm (R80): `w` bits in; the bits below the last whole byte must all be zero,
or `MalformedPadding`; then at most one byte out and the stream is `PADDED`. -/
def State.pushPad (w idx : Nat) (s : State) : State :=
  let a := shiftIn s.dacc.toNat w idx
  let c := s.dcnt.toNat + w
  let m := c % 8
  if field a 0 m ≠ 0 then s.raise .malformedPadding
  else
    (({ s with dacc := 0, dcnt := 0, dpos := nextPos s.dpos }).setPhase phasePadded).emitBytes
      (if 8 ≤ c then [BitVec.ofNat 8 (field a m (c - m))] else [])

/-- `DEC.PUSH s` in the phase `RUN`, by what the reverse index answers (R78, third test). -/
def State.pushLooked (found : Option SymCode) (s : State) : State :=
  match found with
  | none => s.raise .unknownSymbol
  | some (.regular i) => s.pushRegular i
  | some (.pad1 i) => s.pushPad (clsWidth .pad1) i.toNat
  | some (.pad2 i) => s.pushPad (clsWidth .pad2) i.toNat
  | some (.pad3 i) => s.pushPad (clsWidth .pad3) i.toNat
  | some (.pad4 i) => s.pushPad (clsWidth .pad4) i.toNat

/-- The three tests of R78 in their order: recorded failure (R83), then `PADDED` (R82, the token is
not looked up), then the lookup. -/
def State.pushSym (tok : Token) (s : State) : State :=
  if s.phase = phaseFailed then s.repeatError
  else if s.phase = phasePadded then s.raise .malformedPadding
  else s.pushLooked (rev s.table tok)

/-- `DEC.PUSH s` (R78). -/
def execDecPush (tok : Token) (s : State) : Host.Outcome State Fault Refusal :=
  whenLegal s (.next (s.pushSym tok))

/-- The response of `DEC.END` (R84): a recorded failure wins, a padding symbol closes the stream, and
bits left after `Regular` symbols only are `TruncatedStream` at the number of symbols consumed. -/
def State.endResponse (s : State) : RspWord :=
  if s.phase = phaseFailed then rspWord (s.err.setWidth 4) 0 (s.depos.setWidth 64)
  else if s.phase = phasePadded then rspWord (statusCode .ok) 0 0
  else if s.dcnt ≠ 0 then rspWord (statusCode .truncatedStream) 0 (s.dpos.setWidth 64)
  else rspWord (statusCode .ok) 0 0

/-- `DEC.END` (R84): answers the result of the stream, and in every arm returns the decode context to
its reset state. -/
def execDecEnd (s : State) : Host.Outcome State Fault Refusal :=
  whenLegal s (.next { s.clearDec with rsps := s.rsps ++ [s.endResponse] })

end Sys2Proof.Machine
end

