-- ==== Sys2Proof/Machine/Encoder.lean ====
section
/-! DEFINITION. The bit packer and the encoder: `ENC.PUSH` and `ENC.END` (40_encoder.md). -/

namespace Sys2Proof.Machine

/-- `ENC.PUSH b` (R66): the byte is shifted in; when 10 bits or more are valid the top 10 leave as a
`Regular` symbol, at most one per byte (R67). -/
def execEncPush (b : Byte) (s : State) : Host.Outcome State Fault Refusal :=
  whenLegal s <|
    let a := shiftIn s.eacc.toNat 8 b.toNat
    let c := s.ecnt.toNat + 8
    if 10 ≤ c then
      let c2 := c - 10
      .next (({ s with eacc := BitVec.ofNat 16 (field a 0 c2), ecnt := BitVec.ofNat 5 c2 }).emitSym
        (fwd s.table (.regular (BitVec.ofNat 10 (field a c2 10)))))
    else
      .next { s with eacc := BitVec.ofNat 16 a, ecnt := 8 }.respondOk

/-- `ENC.END` (R69): the residual bits, if any, leave as one symbol of the padding alphabet their
width selects (R70), and the encode context returns to its reset state. -/
def execEncEnd (s : State) : Host.Outcome State Fault Refusal :=
  whenLegal s <|
    match tailCode s.ecnt.toNat (field s.eacc.toNat 0 s.ecnt.toNat) with
    | some c => .next (s.clearEnc.emitSym (fwd s.table c))
    | none => .next s.clearEnc.respondOk

end Sys2Proof.Machine
end

