-- ==== Sys2Proof/Machine/ReverseIndex.lean ====
section
/-! DEFINITION. The query of the reverse index: `RIDX.LOOKUP` (41_reverse_index.md). -/

namespace Sys2Proof.Machine

/-- The answer of a lookup (R74, R58): the symbol code of a hit; on a miss the status alone, which is
recorded nowhere and carries no position. -/
def State.answerLookup (found : Option SymCode) (s : State) : State :=
  match found with
  | some c => s.respond (statusCode .ok) 1 ((codeBits c).setWidth 64)
  | none => s.respond (statusCode .unknownSymbol) 0 0

/-- `RIDX.LOOKUP s` (R74): reads `REV`, writes no register. -/
def execRidxLookup (tok : Token) (s : State) : Host.Outcome State Fault Refusal :=
  whenLegal s (.next (s.answerLookup (rev s.table tok)))

end Sys2Proof.Machine
end

