-- ==== Sys2Proof/Machine/System.lean ====
section
/-! DEFINITION. Register read and illegal command words: `RD` and `ILLEGAL` (43_system.md). -/

namespace Sys2Proof.Machine

/-- `RD n` (R89): the register, zero-extended; nothing is written. -/
def execRd (r : Reg) (s : State) : Host.Outcome State Fault Refusal :=
  whenLegal s (.next (s.respond (statusCode .ok) 1 (readReg r s)))

/-- Every word that is not a command (R59, R91): answered `IllegalCommand`, no register written, the
word itself without effect; refused in the same states as the other commands (log entry 15). -/
def execIllegal (_w : CmdWord) (s : State) : Host.Outcome State Fault Refusal :=
  whenLegal s (.next (s.respond (statusCode .illegalCommand) 0 0))

end Sys2Proof.Machine
end

