-- ==== Sys2Proof/Machine/Dispatch.lean ====
section
/-! DEFINITION. One arm per command. -/

namespace Sys2Proof.Machine

def exec (i : Instr) (s : State) : Host.Outcome State Fault Refusal :=
  match i with
  | .encPush b => Sys2Proof.Machine.execEncPush b s
  | .encEnd => Sys2Proof.Machine.execEncEnd s
  | .decPush tok => Sys2Proof.Machine.execDecPush tok s
  | .decEnd => Sys2Proof.Machine.execDecEnd s
  | .ridxLookup tok => Sys2Proof.Machine.execRidxLookup tok s
  | .rd r => Sys2Proof.Machine.execRd r s
  | .illegal w => Sys2Proof.Machine.execIllegal w s

end Sys2Proof.Machine
end

