-- ==== Sys2Proof/Machine/Step.lean ====
section
/-! DEFINITION. The step of the block: one event from its input ports (00_scope.md rules R14, R15;
20_memory.md rule R45). -/

namespace Sys2Proof.Machine

/-- One step. A command word is decoded and executed; the reset input clears the registers in any
state and answers nothing (R121, R123); with nothing at the ports nothing happens, for the block
never produces a response without a command and never halts by itself (R50, R134, log entry 5). -/
def step (s : State) : Host.Outcome State Fault Refusal :=
  match s.accept with
  | none => .next s
  | some (.reset, s') => .next s'.resetRegs
  | some (.command w, s') => exec (decode w) s'

/-- `s` with a table word presented on the command port as the next command. The block fetches
nothing (R24): this is the host's presenting of a command (log entry 6). -/
def State.withFetchWord (s : State) (nbits w : Nat) : State :=
  s.present (BitVec.ofNat 72 (w % 2 ^ nbits))

end Sys2Proof.Machine
end

