-- ==== Sys2Proof/Machine/Streams.lean ====
section
/-! DEFINITION. The pseudo-instructions `ENCODE` and `DECODE` (30_encoding.md rule R64), the stream
functions they realise in closed form (44_stream_functions.md rules R94 and R96), and what a host
reads off the responses of a stream (R93, 70_reset_and_hazards.md rule R130). -/

namespace Sys2Proof.Machine

/-- `ENCODE b0, ..., b(n-1)` (R64). -/
def encodeSeq (bs : List Byte) : List Instr := bs.map .encPush ++ [.encEnd]

/-- `DECODE s0, ..., s(m-1)` (R64). -/
def decodeSeq (toks : List Token) : List Instr := toks.map .decPush ++ [.decEnd]

/-- The host presents a sequence of commands, in order, ahead of everything it has yet to present. -/
def State.presentAll (is : List Instr) (s : State) : State :=
  { s with inputs := is.map (fun i => .command (encode i)) ++ s.inputs }

/-- The whole byte stream read as one number, first byte most significant: `N` of R39 and R94. -/
def streamNumber (bs : List Byte) : Nat := bs.foldl (fun n b => shiftIn n 8 b.toNat) 0

/-- `encode` (R94): `(8n) div 10` `Regular` codes cut from the top of the number, then the tail. -/
def encodeFn (bs : List Byte) : List SymCode :=
  let bits := 8 * bs.length
  let n := streamNumber bs
  (List.range (bits / 10)).map
      (fun j => .regular (BitVec.ofNat 10 (field n (bits - 10 - 10 * j) 10)))
    ++ (tailCode (bits % 10) (field n 0 (bits % 10))).toList

/-- The length `L` in bits of the bit string `S` of R96. -/
def bitsLength (cs : List SymCode) : Nat := (cs.map (fun c => clsWidth (codeCls c))).sum

/-- The bit string `S` of R96 as a number: the indices, each of its class's width, most significant
first. -/
def bitsNumber (cs : List SymCode) : Nat :=
  cs.foldl (fun n c => shiftIn n (clsWidth (codeCls c)) (codeIdx c).toNat) 0

/-- The first `L div 8` bytes of `S` (R96). -/
def wholeBytes (cs : List SymCode) : List Byte :=
  let len := bitsLength cs
  (List.range (len / 8)).map (fun k => BitVec.ofNat 8 (field (bitsNumber cs) (len - 8 - 8 * k) 8))

/-- `ok(bytes)` or `fail(kind, pos)` (R96); the kind is held as its `STATUS` code (R55). -/
inductive DecodeResult where
  | ok (bytes : List Byte)
  | fail (kind : BitVec 4) (pos : Pos)
deriving DecidableEq, Repr

/-- A failure at an index, the position taken modulo 2^32 (R96, R88). -/
def failAt (e : Status) (pos : Nat) : DecodeResult := .fail (statusCode e) (BitVec.ofNat 32 pos)

/-- Clauses 3, 4 and 5 of R96: the first padding symbol is at index `p`. -/
def decodePadded (t : Table) (toks : List Token) (p : Nat) : DecodeResult :=
  let cs := (toks.take (p + 1)).filterMap (rev t)
  if field (bitsNumber cs) 0 (bitsLength cs % 8) ≠ 0 then failAt .malformedPadding p
  else if p + 1 < toks.length then failAt .malformedPadding (p + 1)
  else .ok (wholeBytes cs)

/-- Clause 6 of R96: no padding symbol and no unknown symbol. -/
def decodeRegular (t : Table) (toks : List Token) : DecodeResult :=
  if 10 * toks.length % 8 ≠ 0 then failAt .truncatedStream toks.length
  else .ok (wholeBytes (toks.filterMap (rev t)))

/-- The least index at which the reverse index misses: `u` of R96. -/
def firstUnknown (t : Table) (toks : List Token) : Option Nat :=
  toks.findIdx? (fun s => (rev t s).isNone)

/-- The least index at which the reverse index hits a padding symbol: `p` of R96. -/
def firstPad (t : Table) (toks : List Token) : Option Nat :=
  toks.findIdx? (fun s => (rev t s).any isPad)

/-- `decode` (R96): clause 2 where the unknown symbol comes first, else clauses 3 to 6. -/
def decodeFn (t : Table) (toks : List Token) : DecodeResult :=
  match firstUnknown t toks, firstPad t toks with
  | none, none => decodeRegular t toks
  | some u, none => failAt .unknownSymbol u
  | none, some p => decodePadded t toks p
  | some u, some p => if u ≤ p then failAt .unknownSymbol u else decodePadded t toks p

/-- The symbols a response carries (R56): its token, if it carries one item. -/
def rspSymbols (r : RspWord) : List Token := if rspN r = 1 then [rspData r] else []

/-- The bytes a response carries (R57): none unless `OK`; the earlier byte lowest. -/
def rspBytes (r : RspWord) : List Byte :=
  if rspStatus r = statusCode .ok then
    (List.range (rspN r).toNat).map (fun k => (rspData r).extractLsb' (8 * k) 8)
  else []

/-- The output of an encode stream (R93). -/
def outSymbols (rs : List RspWord) : List Token := rs.flatMap rspSymbols

/-- The output of a decode stream (R93). -/
def outBytes (rs : List RspWord) : List Byte := rs.flatMap rspBytes

/-- What a host makes of the responses of a decode stream (R93, R130): its result is the status of
the last response, and the bytes of a stream that failed are discarded (log entry 14). -/
def hostDecode (rs : List RspWord) : DecodeResult :=
  match rs.getLast? with
  | none => .ok []
  | some r =>
    if rspStatus r = statusCode .ok then .ok (outBytes rs)
    else .fail (rspStatus r) ((rspData r).extractLsb' 0 32)

end Sys2Proof.Machine
end

