-- ==== Sys2Proof/WellFormed.lean ====
section
/-! DEFINITION. Well-formed commands. Every operand is bounded by its type, so the one check left is
that the word of an `illegal` term really is illegal, as 30_encoding.md rules R59 and R60 list it. -/

namespace Sys2Proof

/-- Rule R59's own list of the illegal words: a reserved `OPC` (0x00, 0x07 to 0xFF), a must-be-zero
bit set (R60), or `RD` of a register number above 6. It is written from R59 and R60, not from the
decoding procedure of R62. -/
def illegalWord (w : CmdWord) : Bool :=
  let opc := (w.extractLsb' 0 8).toNat
  let arg := (w.extractLsb' 8 64).toNat
  opc == 0x00 || 0x07 ≤ opc
    || (opc == 0x01 && arg / 2 ^ 8 != 0)
    || ((opc == 0x02 || opc == 0x04) && arg != 0)
    || (opc == 0x06 && (arg / 2 ^ 4 != 0 || 6 < arg % 2 ^ 4))

/-- A command term that some command word stands for. -/
def Instr.wellFormed : Instr → Bool
  | .encPush _ => true
  | .encEnd => true
  | .decPush _ => true
  | .decEnd => true
  | .ridxLookup _ => true
  | .rd _ => true
  | .illegal w => illegalWord w

end Sys2Proof
end

