-- ==== Sys2Proof/Safety.lean ====
section
/-! DEFINITION. What a safe run of the block is, in the terms the claims use: it never stops
(00_scope.md rule R14, 30_encoding.md rule R50), its responses have the form of R54 and R55, and it is
complete when both contexts are back in their reset state (70_reset_and_hazards.md rule R134). -/

namespace Sys2Proof.Machine

/-- The run of a block never stops: after any number of steps there is a next state. -/
def State.NeverStops (s : State) : Prop := ∀ k, ∃ t, Sys2Proof.core.run k s = .next t

/-- The encode context is in its reset state (R34). -/
abbrev State.EncIdle (s : State) : Prop := s.eacc = 0 ∧ s.ecnt = 0

/-- The decode context is in its reset state (R34). -/
abbrev State.DecIdle (s : State) : Prop :=
  s.dacc = 0 ∧ s.dcnt = 0 ∧ s.dpos = 0 ∧ s.dst = 0 ∧ s.depos = 0

/-- A run that has ended here is complete (R134): no event is left and both contexts are idle. -/
abbrev State.Complete (s : State) : Prop := s.inputs = [] ∧ s.EncIdle ∧ s.DecIdle

/-- A response word the block can produce (R54, R55): `STATUS` 0 to 4, `N` 0 to 2, bits 7:6 zero. -/
abbrev rspProduced (r : RspWord) : Prop :=
  (rspStatus r).toNat ≤ 4 ∧ (rspN r).toNat ≤ 2 ∧ r.extractLsb' 6 2 = 0

/-- The commands of the encode context (R46, R93). -/
def isEncCmd (i : Instr) : Bool :=
  match i with
  | .encPush _ | .encEnd => true
  | .decPush _ | .decEnd | .ridxLookup _ | .rd _ | .illegal _ => false

/-- The commands of the decode context (R46, R93). -/
def isDecCmd (i : Instr) : Bool :=
  match i with
  | .decPush _ | .decEnd => true
  | .encPush _ | .encEnd | .ridxLookup _ | .rd _ | .illegal _ => false

/-- The responses that answer the commands of one kind, in order: response `k` answers command `k`
(R50). -/
def answersTo (kind : Instr → Bool) (is : List Instr) (rs : List RspWord) : List RspWord :=
  ((is.zip rs).filter (fun p => kind p.1)).map Prod.snd

end Sys2Proof.Machine
end

