-- ==== Sys2Proof/Certificates/Slice0/Obligations.lean ====
section
/-! DEFINITION. The statements for the provers, in the order of OBLIGATIONS.json. Each docstring names
the rules of spec/ it follows; a clause that is the model's own choice says so and names its log entry.
`s.Legal` is R20, R23 and R27 together, the register states a block can be in. -/

open Sys2Proof Sys2Proof.Machine

/-! ### Encoding -/

/-- Words written out from R51 and R52 (the vectors of 95_test_vectors.md, parts 2 and 3). -/
def Obligations.CommandWordsDecodeAsWritten : Prop :=
  decode 0x000000000000004801 = .encPush 0x48 ∧
  decode 0x000000000000000002 = .encEnd ∧
  decode 0x00000000000E012103 = .decPush 0xE0121 ∧
  decode 0x000000000000000004 = .decEnd ∧
  decode 0x00000000000E10FF05 = .ridxLookup 0xE10FF ∧
  decode 0x000000000000000506 = .rd .dst ∧
  decode 0x000000000000000706 = .illegal 0x000000000000000706 ∧
  decode 0x000000000000000000 = .illegal 0x000000000000000000

/-- R62, last paragraph: encoding then decoding a term gives the same term, with every operand at
every value; decoding then encoding a word gives the same word (also an illegal one, for the model's
`illegal` term keeps its word, log entry 7). -/
def Obligations.DecodeAndEncodeAgree : Prop :=
  (∀ i : Instr, i.wellFormed = true → decode (encode i) = i) ∧
  (∀ w : CmdWord, encode (decode w) = w)

/-- R52 and R53 for every word, in arithmetic on the word's number: which command it is and how its
operand is assembled. -/
def Obligations.EveryWordDecodesByTheOpcodeMap : Prop :=
  ∀ c : CmdWord, let opc := c.toNat % 256; let arg := c.toNat / 256
    (opc = 0x01 → arg < 256 → decode c = .encPush (BitVec.ofNat 8 arg)) ∧
    (opc = 0x02 → arg = 0 → decode c = .encEnd) ∧
    (opc = 0x03 → decode c = .decPush (BitVec.ofNat 64 arg)) ∧
    (opc = 0x04 → arg = 0 → decode c = .decEnd) ∧
    (opc = 0x05 → decode c = .ridxLookup (BitVec.ofNat 64 arg)) ∧
    (opc = 0x06 → arg ≤ 6 → ∃ r, decode c = .rd r ∧ r.number.toNat = arg) ∧
    (opc = 0x00 ∨ 0x07 ≤ opc ∨ (opc = 0x01 ∧ 256 ≤ arg) ∨ (opc = 0x02 ∧ arg ≠ 0) ∨
      (opc = 0x04 ∧ arg ≠ 0) ∨ (opc = 0x06 ∧ 6 < arg) → decode c = .illegal c)

/-- The mask and match numbers of spec/opcode_table.json against the decoder: a word that a line of
the table takes decodes to that line's row, and a word that no line takes is illegal. -/
def Obligations.OpcodeTableLinesDecodeToTheirRow : Prop :=
  ∀ w : CmdWord,
    (∀ o ∈ opcodeTable, o.takes w = true → (decode w).row = o.row) ∧
    ((∀ o ∈ opcodeTable, o.takes w = false) → decode w = .illegal w)

/-! ### The step, the ports and reset -/

/-- R14, R45: with a command word at the port, the step is the decoded command's meaning, on the state
with the word taken. -/
def Obligations.StepRunsTheDecodedCommand : Prop :=
  (∀ (s : State) (w : CmdWord) (rest : List HostInput), s.inputs = .command w :: rest →
    step s = exec (decode w) { s with inputs := rest }) ∧
  (∀ (s : State) (i : Instr), i.wellFormed = true → step (s.present (encode i)) = exec i s)

/-- The model's own choice (log entry 5; R50 "never produces a response without a command", R134 "never
halts"): with nothing at the ports, a step changes nothing. -/
def Obligations.NoCommandNoResponse : Prop :=
  ∀ s : State, s.inputs = [] → step s = .next s

/-- R122, R121, R124: the reset input makes all seven registers 0 in ANY state, legal or not, leaves
the tables and the responses already given, and answers nothing. -/
def Obligations.ResetInputClearsEveryRegister : Prop :=
  ∀ (s : State) (rest : List HostInput), s.inputs = .reset :: rest →
    step s = .next { eacc := 0, ecnt := 0, dacc := 0, dcnt := 0, dpos := 0, dst := 0, depos := 0,
                     table := s.table, inputs := rest, rsps := s.rsps }

/-- R34: the reset values; who writes each register; and each context after its `END` command holds
its reset values. -/
def Obligations.RegistersResetAndTheirWriters : Prop :=
  (State.reset.EncIdle ∧ State.reset.DecIdle) ∧
  ∀ (i : Instr) (s t : State), exec i s = .next t →
    (isEncCmd i = false → t.eacc = s.eacc ∧ t.ecnt = s.ecnt) ∧
    (isDecCmd i = false → t.dacc = s.dacc ∧ t.dcnt = s.dcnt ∧ t.dpos = s.dpos ∧ t.dst = s.dst ∧
      t.depos = s.depos) ∧
    (i = .encEnd → t.EncIdle) ∧ (i = .decEnd → t.DecIdle)

/-- R20, at reset and from every state that has it. -/
def Obligations.EncodeInvariantHoldsAndIsKept : Prop :=
  let inv := fun s : State =>
    (s.ecnt = 0 ∨ s.ecnt = 2 ∨ s.ecnt = 4 ∨ s.ecnt = 6 ∨ s.ecnt = 8) ∧
      s.eacc.toNat < 2 ^ s.ecnt.toNat
  inv State.reset ∧ ∀ s t : State, inv s → step s = .next t → inv t

/-- R23, at reset and from every state that has it. -/
def Obligations.DecodeInvariantHoldsAndIsKept : Prop :=
  let inv := fun s : State =>
    (s.dcnt = 0 ∨ s.dcnt = 2 ∨ s.dcnt = 4 ∨ s.dcnt = 6) ∧ s.dacc.toNat < 2 ^ s.dcnt.toNat ∧
      (s.phase = phasePadded → s.dcnt = 0 ∧ s.dacc = 0)
  inv State.reset ∧ ∀ s t : State, inv s → step s = .next t → inv t

/-- R27 (with R25's "3 is never written"), at reset and from every state that has it; and only `DEC.END`
answers `TruncatedStream`, in a response, leaving the context reset. -/
def Obligations.StatusInvariantHoldsAndIsKept : Prop :=
  let inv := fun s : State =>
    (s.phase = phaseFailed ↔ s.err ≠ 0) ∧ (s.err = 0 ∨ s.err = 1 ∨ s.err = 2) ∧ s.phase ≠ 3 ∧
      (s.phase ≠ phaseFailed → s.depos = 0)
  (inv State.reset ∧ ∀ s t : State, inv s → step s = .next t → inv t) ∧
  ∀ (i : Instr) (s t : State) (r : RspWord), exec i s = .next t → t.rsps = s.rsps ++ [r] →
    rspStatus r = 3 → i = .decEnd ∧ t.DecIdle

/-- Derived from R79 to R84, R112: in `RUN` the bits held are those of the `10 * DPOS` bits of the
stream that do not fill a byte, and a recorded error stands at the position where the stream stopped. -/
def Obligations.PositionAndCountStayTogether : Prop :=
  let inv := fun s : State =>
    (s.phase = phaseRun → s.dcnt.toNat = 10 * s.dpos.toNat % 8) ∧
      (s.phase = phaseFailed → s.depos = s.dpos)
  inv State.reset ∧ ∀ s t : State, inv s → step s = .next t → inv t

/-- R50: a run of `n` commands, each any of the 2^72 words, ends in a next state with exactly `n` new
responses; the first `k` commands by themselves give the first `k` of them. -/
def Obligations.EveryCommandIsAnsweredOnceInOrder : Prop :=
  ∀ (ws : List CmdWord) (s : State), s.Legal → s.inputs = [] →
    ∃ rs : List RspWord, rs.length = ws.length ∧
      ∀ k ≤ ws.length, ∃ t : State,
        core.run k { s with inputs := ws.map .command } = .next t ∧
        t.Legal ∧ t.inputs = (ws.drop k).map .command ∧ t.rsps = s.rsps ++ rs.take k

/-- R14, R134 ("never halts and is never stuck"): from a legal register state, or from ANY state whose
next event is the reset input (R123), no number of steps ends in a stop, whatever the host presents. -/
def Obligations.TheBlockNeverStops : Prop :=
  ∀ s : State, (s.Legal ∨ ∃ rest, s.inputs = .reset :: rest) → s.NeverStops

/-- The model's own choice (log entries 4 and 15, both DEDUCED). For a register state outside R20, R23
and R27, 93_implementation_defined.md U8 leaves a model two ways, to exclude it by the type or to
"`refuse` a step from such a state". This model refuses, and it is its own choice that every command
is refused whichever context is broken, also the commands that read no register of it. -/
def Obligations.UnreachableStatesAreRefused : Prop :=
  ∀ (i : Instr) (s : State), exec i s = .refused .unreachableState ↔ ¬ s.Legal

/-- R31, and of R113 that nothing already answered is taken back: no step, the reset input included,
changes the tables or an earlier response. -/
def Obligations.TablesNeverChange : Prop :=
  ∀ s t : State, step s = .next t → t.table = s.table ∧ s.rsps <+: t.rsps

/-- R54, R55: the form of every response, and which status each command can answer. -/
def Obligations.StatusOfEachCommand : Prop :=
  ∀ (i : Instr) (s t : State), exec i s = .next t →
    ∃ r : RspWord, t.rsps = s.rsps ++ [r] ∧ rspProduced r ∧
      match i with
      | .encPush _ | .encEnd | .rd _ => rspStatus r = 0
      | .decPush _ => rspStatus r = 0 ∨ rspStatus r = 1 ∨ rspStatus r = 2
      | .decEnd => rspStatus r = 0 ∨ rspStatus r = 1 ∨ rspStatus r = 2 ∨ rspStatus r = 3
      | .ridxLookup _ => rspStatus r = 0 ∨ rspStatus r = 1
      | .illegal _ => rspStatus r = 4

/-! ### ENC.PUSH and ENC.END -/

/-- R66: `ENC.PUSH b` for each of the five counts of R20, the group and the bits that stay written as
concatenations of register bits; everything else unchanged. -/
def Obligations.EncPushResult : Prop :=
  ∀ (b : Byte) (s : State), s.Legal →
    decode ((b.setWidth 64 : BitVec 64) ++ 0x01#8) = .encPush b ∧
    (s.ecnt = 0 → exec (.encPush b) s = .next { s with
      eacc := b.setWidth 16, ecnt := 8, rsps := s.rsps ++ [rspWord 0 0 0] }) ∧
    (s.ecnt = 2 → exec (.encPush b) s = .next { s with
      eacc := 0, ecnt := 0
      rsps := s.rsps ++ [rspWord 0 1 (fwd s.table (.regular (s.eacc.extractLsb' 0 2 ++ b)))] }) ∧
    (s.ecnt = 4 → exec (.encPush b) s = .next { s with
      eacc := (b.extractLsb' 0 2).setWidth 16, ecnt := 2
      rsps := s.rsps ++
        [rspWord 0 1 (fwd s.table (.regular (s.eacc.extractLsb' 0 4 ++ b.extractLsb' 2 6)))] }) ∧
    (s.ecnt = 6 → exec (.encPush b) s = .next { s with
      eacc := (b.extractLsb' 0 4).setWidth 16, ecnt := 4
      rsps := s.rsps ++
        [rspWord 0 1 (fwd s.table (.regular (s.eacc.extractLsb' 0 6 ++ b.extractLsb' 4 4)))] }) ∧
    (s.ecnt = 8 → exec (.encPush b) s = .next { s with
      eacc := (b.extractLsb' 0 6).setWidth 16, ecnt := 6
      rsps := s.rsps ++
        [rspWord 0 1 (fwd s.table (.regular (s.eacc.extractLsb' 0 8 ++ b.extractLsb' 6 2)))] })

/-- Of R67: five pushes from an empty accumulator: the first emits nothing, the other four emit the
four groups of the 40 bits, and `ECNT` goes 8, 6, 4, 2, 0. -/
def Obligations.FivePushesEmitFourGroups : Prop :=
  ∀ (b0 b1 b2 b3 b4 : Byte) (s : State), s.Legal → s.ecnt = 0 →
    let n : BitVec 40 := b0 ++ (b1 ++ (b2 ++ (b3 ++ b4)))
    let run := fun k => core.run k
      (s.presentAll [.encPush b0, .encPush b1, .encPush b2, .encPush b3, .encPush b4])
    let sym := fun lo => rspWord 0 1 (fwd s.table (.regular (n.extractLsb' lo 10)))
    (∃ t, run 1 = .next t ∧ t.ecnt = 8 ∧ t.rsps = s.rsps ++ [rspWord 0 0 0]) ∧
    (∃ t, run 2 = .next t ∧ t.ecnt = 6 ∧ t.rsps = s.rsps ++ [rspWord 0 0 0, sym 30]) ∧
    (∃ t, run 3 = .next t ∧ t.ecnt = 4 ∧ t.rsps = s.rsps ++ [rspWord 0 0 0, sym 30, sym 20]) ∧
    (∃ t, run 4 = .next t ∧ t.ecnt = 2 ∧
      t.rsps = s.rsps ++ [rspWord 0 0 0, sym 30, sym 20, sym 10]) ∧
    run 5 = .next { s with rsps := s.rsps ++ [rspWord 0 0 0, sym 30, sym 20, sym 10, sym 0] }

/-- R69 with the classes of R70: `ENC.END` for each of the five counts; the context returns to its
reset state and everything else is unchanged. -/
def Obligations.EncEndResult : Prop :=
  ∀ s : State, s.Legal →
    decode (0#64 ++ 0x02#8) = .encEnd ∧
    (s.ecnt = 0 → exec .encEnd s = .next { s with
      eacc := 0, ecnt := 0, rsps := s.rsps ++ [rspWord 0 0 0] }) ∧
    (s.ecnt = 2 → exec .encEnd s = .next { s with
      eacc := 0, ecnt := 0
      rsps := s.rsps ++ [rspWord 0 1 (fwd s.table (.pad1 (s.eacc.extractLsb' 0 2)))] }) ∧
    (s.ecnt = 4 → exec .encEnd s = .next { s with
      eacc := 0, ecnt := 0
      rsps := s.rsps ++ [rspWord 0 1 (fwd s.table (.pad2 (s.eacc.extractLsb' 0 4)))] }) ∧
    (s.ecnt = 6 → exec .encEnd s = .next { s with
      eacc := 0, ecnt := 0
      rsps := s.rsps ++ [rspWord 0 1 (fwd s.table (.pad3 (s.eacc.extractLsb' 0 6)))] }) ∧
    (s.ecnt = 8 → exec .encEnd s = .next { s with
      eacc := 0, ecnt := 0
      rsps := s.rsps ++ [rspWord 0 1 (fwd s.table (.pad4 (s.eacc.extractLsb' 0 8)))] })

/-- R71, and of R72 that only `ENC.END` emits padding: every encode command is answered `OK` with at
most one symbol, from `ENC.PUSH` a `Regular` one, from `ENC.END` a padding one. -/
def Obligations.EncoderNeverFails : Prop :=
  ∀ s : State, s.Legal →
    (∀ b : Byte, ∃ t, exec (.encPush b) s = .next t ∧
      (t.rsps = s.rsps ++ [rspWord 0 0 0] ∨
        ∃ g, t.rsps = s.rsps ++ [rspWord 0 1 (fwd s.table (.regular g))])) ∧
    (∃ t, exec .encEnd s = .next t ∧
      (t.rsps = s.rsps ++ [rspWord 0 0 0] ∨
        ∃ c, isPad c = true ∧ t.rsps = s.rsps ++ [rspWord 0 1 (fwd s.table c)]))

/-- R70: push any bytes from an idle encode context: what `ENC.END` then emits is fixed, as to its class,
by the number of bytes modulo 5 alone, and its index is the last bits of the stream as a number. -/
def Obligations.TailClassIsFixedByTheLength : Prop :=
  ∀ (bs : List Byte) (s : State), s.Legal → s.EncIdle →
    let n := bs.length
    let r := streamNumber bs % 2 ^ (8 * n % 10)
    ∃ t u : State, core.run n (s.presentAll (bs.map .encPush)) = .next t ∧ t.ecnt.toNat = 8 * n % 10 ∧
      exec .encEnd t = .next u ∧
      (n % 5 = 0 → u.rsps = t.rsps ++ [rspWord 0 0 0]) ∧
      (n % 5 = 4 → u.rsps = t.rsps ++ [rspWord 0 1 (fwd s.table (.pad1 (BitVec.ofNat 2 r)))]) ∧
      (n % 5 = 3 → u.rsps = t.rsps ++ [rspWord 0 1 (fwd s.table (.pad2 (BitVec.ofNat 4 r)))]) ∧
      (n % 5 = 2 → u.rsps = t.rsps ++ [rspWord 0 1 (fwd s.table (.pad3 (BitVec.ofNat 6 r)))]) ∧
      (n % 5 = 1 → u.rsps = t.rsps ++ [rspWord 0 1 (fwd s.table (.pad4 (BitVec.ofNat 8 r)))] ∧
        bs.getLast? = some (BitVec.ofNat 8 r))

/-! ### The tables and RIDX.LOOKUP -/

/-- R30: `REV` is the inverse of `FWD`, and a miss everywhere else. -/
def Obligations.ReverseIndexInvertsForwardTable : Prop :=
  ∀ (t : Table) (tok : Token),
    (∀ c, rev t tok = some c ↔ fwd t c = tok) ∧
    (rev t tok = none ↔ ∀ c, fwd t c ≠ tok)

/-- R74: the answer of a lookup, hit and miss; nothing else changes. -/
def Obligations.LookupResult : Prop :=
  ∀ (tok : Token) (s : State), s.Legal →
    decode (tok ++ 0x05#8) = .ridxLookup tok ∧
    (∀ c, fwd s.table c = tok → exec (.ridxLookup tok) s = .next { s with
      rsps := s.rsps ++
        [rspWord 0 1 (BitVec.ofNat 64 (1024 * (clsCode (codeCls c)).toNat + (codeIdx c).toNat))] }) ∧
    ((∀ c, fwd s.table c ≠ tok) → exec (.ridxLookup tok) s = .next { s with
      rsps := s.rsps ++ [rspWord 1 0 0] })

/-- R104 with R29: no token belongs to two symbol codes; the empty stream encodes to the empty stream
and decodes to it. -/
def Obligations.AlphabetsAreDisjointAndEmptyIsEmpty : Prop :=
  (∀ (t : Table) (c d : SymCode), fwd t c = fwd t d → codeCls c = codeCls d ∧ codeIdx c = codeIdx d) ∧
  encodeFn [] = [] ∧ ∀ t : Table, decodeFn t [] = .ok []

/-! ### DEC.PUSH and DEC.END -/

/-- R79: a `Regular` symbol in `RUN`, for each of the four counts of R23, bytes and remaining bits
written as concatenations of register bits. -/
def Obligations.DecPushRegularResult : Prop :=
  ∀ (tok : Token) (i : BitVec 10) (s : State), s.Legal → s.phase = phaseRun →
    fwd s.table (.regular i) = tok →
    (s.dcnt = 0 → exec (.decPush tok) s = .next { s with
      dacc := (i.extractLsb' 0 2).setWidth 16, dcnt := 2, dpos := s.dpos + 1
      rsps := s.rsps ++ [rspWord 0 1 ((i.extractLsb' 2 8).setWidth 64)] }) ∧
    (s.dcnt = 2 → exec (.decPush tok) s = .next { s with
      dacc := (i.extractLsb' 0 4).setWidth 16, dcnt := 4, dpos := s.dpos + 1
      rsps := s.rsps ++
        [rspWord 0 1 ((s.dacc.extractLsb' 0 2 ++ i.extractLsb' 4 6).setWidth 64)] }) ∧
    (s.dcnt = 4 → exec (.decPush tok) s = .next { s with
      dacc := (i.extractLsb' 0 6).setWidth 16, dcnt := 6, dpos := s.dpos + 1
      rsps := s.rsps ++
        [rspWord 0 1 ((s.dacc.extractLsb' 0 4 ++ i.extractLsb' 6 4).setWidth 64)] }) ∧
    (s.dcnt = 6 → exec (.decPush tok) s = .next { s with
      dacc := 0, dcnt := 0, dpos := s.dpos + 1
      rsps := s.rsps ++ [rspWord 0 2
        ((i.extractLsb' 0 8 ++ (s.dacc.extractLsb' 0 6 ++ i.extractLsb' 8 2)).setWidth 64)] })

/-- R80: a padding symbol in `RUN`, in arithmetic: the leftover bits below the last whole byte decide
between `MalformedPadding` and the end of the stream with at most one byte. -/
def Obligations.DecPushPaddingResult : Prop :=
  ∀ (tok : Token) (c : SymCode) (s : State), s.Legal → s.phase = phaseRun →
    fwd s.table c = tok → isPad c = true →
    let w := 2 * (clsCode (codeCls c)).toNat
    let a := s.dacc.toNat * 2 ^ w + (codeIdx c).toNat
    let n := s.dcnt.toNat + w
    (a % 2 ^ (n % 8) ≠ 0 → exec (.decPush tok) s = .next { s with
      dst := 0b01010, depos := s.dpos
      rsps := s.rsps ++ [rspWord 2 0 (s.dpos.setWidth 64)] }) ∧
    (a % 2 ^ (n % 8) = 0 → 8 ≤ n → exec (.decPush tok) s = .next { s with
      dacc := 0, dcnt := 0, dpos := s.dpos + 1, dst := 0b00001
      rsps := s.rsps ++ [rspWord 0 1 (BitVec.ofNat 64 (a / 2 ^ (n % 8)))] }) ∧
    (a % 2 ^ (n % 8) = 0 → n < 8 → exec (.decPush tok) s = .next { s with
      dacc := 0, dcnt := 0, dpos := s.dpos + 1, dst := 0b00001
      rsps := s.rsps ++ [rspWord 0 0 0] })

/-- R81: an unknown symbol in `RUN`. -/
def Obligations.DecPushUnknownResult : Prop :=
  ∀ (tok : Token) (s : State), s.Legal → s.phase = phaseRun → (∀ c, fwd s.table c ≠ tok) →
    exec (.decPush tok) s = .next { s with
      dst := 0b00110, depos := s.dpos
      rsps := s.rsps ++ [rspWord 1 0 (s.dpos.setWidth 64)] }

/-- R82: any token at all in `PADDED`, known or unknown. -/
def Obligations.DecPushAfterPaddingResult : Prop :=
  ∀ (tok : Token) (s : State), s.Legal → s.phase = phasePadded →
    exec (.decPush tok) s = .next { s with
      dst := 0b01010, depos := s.dpos
      rsps := s.rsps ++ [rspWord 2 0 (s.dpos.setWidth 64)] }

/-- R83: any token at all in `FAILED`: the recorded error and position once more, no register
written. -/
def Obligations.DecPushAfterFailureResult : Prop :=
  ∀ (tok : Token) (s : State), s.Legal → s.phase = phaseFailed →
    exec (.decPush tok) s = .next { s with
      rsps := s.rsps ++ [rspWord ((s.dst.extractLsb' 2 3).setWidth 4) 0 (s.depos.setWidth 64)] }

/-- R84: `DEC.END` in each of its four arms; the decode context returns to its reset state in all of
them and everything else is unchanged. -/
def Obligations.DecEndResult : Prop :=
  ∀ s : State, s.Legal →
    let done := fun r : RspWord => (Host.Outcome.next { s with
      dacc := 0, dcnt := 0, dpos := 0, dst := 0, depos := 0, rsps := s.rsps ++ [r] } :
        Host.Outcome State Fault Refusal)
    decode (0#64 ++ 0x04#8) = .decEnd ∧
    (s.phase = phaseFailed → exec .decEnd s =
      done (rspWord ((s.dst.extractLsb' 2 3).setWidth 4) 0 (s.depos.setWidth 64))) ∧
    (s.phase = phasePadded → exec .decEnd s = done (rspWord 0 0 0)) ∧
    (s.phase = phaseRun → s.dcnt ≠ 0 → exec .decEnd s = done (rspWord 3 0 (s.dpos.setWidth 64))) ∧
    (s.phase = phaseRun → s.dcnt = 0 → exec .decEnd s = done (rspWord 0 0 0))

/-- R87: the complete transition relation of `DST.PHASE`, with the status of each response. -/
def Obligations.PhaseTransitions : Prop :=
  (∀ (i : Instr) (s t : State), exec i s = .next t →
    ∃ r : RspWord, t.rsps = s.rsps ++ [r] ∧
      match i with
      | .decPush tok =>
        (s.phase = phaseRun → (∀ c, fwd s.table c ≠ tok) →
          t.phase = phaseFailed ∧ t.err = 1 ∧ rspStatus r = 1) ∧
        (∀ c, s.phase = phaseRun → fwd s.table c = tok → isPad c = false →
          t.phase = phaseRun ∧ rspStatus r = 0) ∧
        (∀ c, s.phase = phaseRun → fwd s.table c = tok → isPad c = true →
          let w := clsWidth (codeCls c)
          let left := (s.dacc.toNat * 2 ^ w + (codeIdx c).toNat) % 2 ^ ((s.dcnt.toNat + w) % 8)
          (left = 0 → t.phase = phasePadded ∧ rspStatus r = 0) ∧
          (left ≠ 0 → t.phase = phaseFailed ∧ t.err = 2 ∧ rspStatus r = 2)) ∧
        (s.phase = phasePadded → t.phase = phaseFailed ∧ t.err = 2 ∧ rspStatus r = 2) ∧
        (s.phase = phaseFailed →
          t.phase = phaseFailed ∧ t.err = s.err ∧ rspStatus r = s.err.setWidth 4)
      | .decEnd =>
        t.phase = phaseRun ∧
        (s.phase = phaseRun → s.dcnt = 0 → rspStatus r = 0) ∧
        (s.phase = phaseRun → s.dcnt ≠ 0 → rspStatus r = 3) ∧
        (s.phase = phasePadded → rspStatus r = 0) ∧
        (s.phase = phaseFailed → rspStatus r = s.err.setWidth 4)
      | .encPush _ | .encEnd | .ridxLookup _ | .rd _ | .illegal _ => t.phase = s.phase) ∧
  (∀ (s t : State) (rest : List HostInput), s.inputs = .reset :: rest → step s = .next t →
    t.phase = phaseRun ∧ t.rsps = s.rsps)

/-- R112 with R113: whenever a `DEC.PUSH` puts the stream into `FAILED`, it has written `DST` and
`DEPOS`, answered the error at `DPOS`, and done nothing else. -/
def Obligations.RaisingAnErrorDoesExactlyThis : Prop :=
  ∀ (tok : Token) (s t : State), s.phase ≠ phaseFailed → exec (.decPush tok) s = .next t →
    t.phase = phaseFailed →
    ∃ code : BitVec 3, (code = 1 ∨ code = 2) ∧ t = { s with
      dst := code ++ 2#2, depos := s.dpos
      rsps := s.rsps ++ [rspWord (code.setWidth 4) 0 (s.dpos.setWidth 64)] }

/-- R114: a step that leaves `FAILED` is the reset input or a `DEC.END`, which reports the recorded
error once more and returns every decode register to its reset value. -/
def Obligations.OnlyDecEndOrResetLeavesFailed : Prop :=
  ∀ s t : State, s.phase = phaseFailed → step s = .next t → t.phase ≠ phaseFailed →
    (∃ rest, s.inputs = .reset :: rest) ∨
    (∃ w rest, s.inputs = .command w :: rest ∧ decode w = .decEnd ∧ t.DecIdle ∧
      t.rsps = s.rsps ++ [rspWord (s.err.setWidth 4) 0 (s.depos.setWidth 64)])

/-- R115: in `FAILED` no command but `DEC.END` changes the recorded error or its position, `DEC.PUSH`
only repeats it, an illegal word is answered for itself alone, and the encode commands answer and move
the encode context exactly as they do when the decode context is idle. -/
def Obligations.ErrorsDoNotNest : Prop :=
  ∀ (i : Instr) (s : State), s.Legal → s.phase = phaseFailed → i ≠ .decEnd →
    ∃ t, exec i s = .next t ∧ t.dst = s.dst ∧ t.depos = s.depos ∧
      (∀ tok, i = .decPush tok → t.rsps = s.rsps ++ [rspWord (s.err.setWidth 4) 0 (s.depos.setWidth 64)]) ∧
      (∀ w, i = .illegal w → t.rsps = s.rsps ++ [rspWord 4 0 0]) ∧
      (isEncCmd i = true → exec i s.clearDec = .next t.clearDec)

/-- Of R24: `DPOS` counts the accepted symbols modulo 2^32, stays at every other `DEC.PUSH`, and is 0
after `DEC.END`. -/
def Obligations.DecodePositionCountsAcceptedSymbols : Prop :=
  (∀ (tok : Token) (s t : State) (r : RspWord), exec (.decPush tok) s = .next t →
    t.rsps = s.rsps ++ [r] →
    (rspStatus r = 0 → t.dpos.toNat = (s.dpos.toNat + 1) % 2 ^ 32) ∧
    (rspStatus r ≠ 0 → t.dpos = s.dpos)) ∧
  (∀ s t : State, exec .decEnd s = .next t → t.dpos = 0)

/-! ### RD, illegal words, independence -/

/-- R89: `RD` of each of the seven registers; nothing else changes. -/
def Obligations.RdResult : Prop :=
  ∀ s : State, s.Legal →
    let answer := fun v : Nat => (Host.Outcome.next { s with
      rsps := s.rsps ++ [rspWord 0 1 (BitVec.ofNat 64 v)] } : Host.Outcome State Fault Refusal)
    (∀ r : Reg, decode ((r.number.setWidth 64 : BitVec 64) ++ 0x06#8) = .rd r) ∧
    exec (.rd .eacc) s = answer s.eacc.toNat ∧
    exec (.rd .ecnt) s = answer s.ecnt.toNat ∧
    exec (.rd .dacc) s = answer s.dacc.toNat ∧
    exec (.rd .dcnt) s = answer s.dcnt.toNat ∧
    exec (.rd .dpos) s = answer s.dpos.toNat ∧
    exec (.rd .dst) s = answer (4 * s.err.toNat + s.phase.toNat) ∧
    exec (.rd .depos) s = answer s.depos.toNat

/-- R91, R59, R60, R90: every word on R59's list decodes to the illegal term, and presented in any legal
state it is answered `IllegalCommand` and changes nothing else. -/
def Obligations.IllegalWordsAreAnsweredAndIgnored : Prop :=
  ∀ (w : CmdWord) (s : State), s.Legal → illegalWord w = true →
    decode w = .illegal w ∧
    exec (.illegal w) s = .next { s with rsps := s.rsps ++ [rspWord 4 0 0] } ∧
    step (s.present w) = .next { s with rsps := s.rsps ++ [rspWord 4 0 0] }

/-- R46: run any sequence of commands, and its encode commands alone, and its decode commands alone,
from the same state: each context ends the same and each of its commands is answered the same. -/
def Obligations.ContextsAreIndependent : Prop :=
  ∀ (is : List Instr) (s : State), s.Legal → s.inputs = [] → (∀ i ∈ is, i.wellFormed = true) →
    ∃ (t te td : State) (rs re rd : List RspWord),
      core.run is.length (s.presentAll is) = .next t ∧
      core.run (is.filter isEncCmd).length (s.presentAll (is.filter isEncCmd)) = .next te ∧
      core.run (is.filter isDecCmd).length (s.presentAll (is.filter isDecCmd)) = .next td ∧
      t.rsps = s.rsps ++ rs ∧ te.rsps = s.rsps ++ re ∧ td.rsps = s.rsps ++ rd ∧
      rs.length = is.length ∧
      re = answersTo isEncCmd is rs ∧ rd = answersTo isDecCmd is rs ∧
      te.eacc = t.eacc ∧ te.ecnt = t.ecnt ∧
      td.dacc = t.dacc ∧ td.dcnt = t.dcnt ∧ td.dpos = t.dpos ∧ td.dst = t.dst ∧ td.depos = t.depos

/-! ### The stream functions -/

/-- R39, encode direction: bit `k` from the top of group `j` is stream bit `10j + k`, which is bit
`7 - (10j + k) mod 8` of byte `(10j + k) div 8`; the tail continues in the same order. -/
def Obligations.GroupsAreCutFromTheBitStreamInOrder : Prop :=
  ∀ bs : List Byte,
    let bit := fun p => (bs.getD (p / 8) 0).getLsbD (7 - p % 8)
    (∀ j < 8 * bs.length / 10, ∃ g : BitVec 10, (encodeFn bs)[j]? = some (.regular g) ∧
      ∀ k < 10, g.getLsbD (9 - k) = bit (10 * j + k)) ∧
    (8 * bs.length % 10 ≠ 0 → ∃ c, (encodeFn bs)[8 * bs.length / 10]? = some c ∧ isPad c = true ∧
      clsWidth (codeCls c) = 8 * bs.length % 10 ∧
      ∀ k < 8 * bs.length % 10, (codeIdx c).getLsbD (8 * bs.length % 10 - 1 - k) =
        bit (10 * (8 * bs.length / 10) + k))

/-- R95: `ENCODE` on the block realises `encode`. -/
def Obligations.EncodeStreamRealisesEncode : Prop :=
  ∀ (bs : List Byte) (s : State), s.Legal → s.EncIdle →
    ∃ rs : List RspWord,
      core.run (bs.length + 1) (s.presentAll (encodeSeq bs)) = .next { s with rsps := s.rsps ++ rs } ∧
      rs.length = bs.length + 1 ∧ (∀ r ∈ rs, rspStatus r = 0) ∧
      outSymbols rs = (encodeFn bs).map (fwd s.table) ∧
      (∀ j < 8 * bs.length / 10,
        (rs[(10 * j + 9) / 8]?).map rspSymbols = some (((encodeFn bs).map (fwd s.table))[j]?).toList) ∧
      (8 * bs.length % 10 ≠ 0 →
        (rs[bs.length]?).map rspSymbols =
          some (((encodeFn bs).map (fwd s.table))[8 * bs.length / 10]?).toList)

/-- R97: `DECODE` on the block realises `decode`: the bytes and the responses that carry them, or the
error, its position and where it is first answered. Positions are modulo 2^32 (R88). -/
def Obligations.DecodeStreamRealisesDecode : Prop :=
  ∀ (toks : List Token) (s : State), s.Legal → s.DecIdle →
    ∃ rs : List RspWord,
      core.run (toks.length + 1) (s.presentAll (decodeSeq toks)) =
        .next { s with rsps := s.rsps ++ rs } ∧
      rs.length = toks.length + 1 ∧
      match decodeFn s.table toks with
      | .ok bytes =>
        (∀ r ∈ rs, rspStatus r = 0) ∧ outBytes rs = bytes ∧
        ∀ j ≤ toks.length, (rs[j]?).map rspBytes =
          some (bytes.zipIdx.filterMap (fun p => if (8 * p.2 + 7) / 10 = j then some p.1 else none))
      | .fail kind pos =>
        rs[toks.length]? = some (rspWord kind 0 (pos.setWidth 64)) ∧
        ((kind = statusCode .truncatedStream ∧ pos = BitVec.ofNat 32 toks.length ∧
            ∀ j < toks.length, (rs[j]?).map rspStatus = some 0) ∨
         ((kind = statusCode .unknownSymbol ∨ kind = statusCode .malformedPadding) ∧
          ∃ p < toks.length, pos = BitVec.ofNat 32 p ∧
            (∀ j < p, (rs[j]?).map rspStatus = some 0) ∧
            ∀ j, p ≤ j → j ≤ toks.length → rs[j]? = some (rspWord kind 0 (pos.setWidth 64))))

/-- R98: the round-trip law, for every table and every byte sequence. -/
def Obligations.DecodeOfEncodedBytesGivesThemBack : Prop :=
  ∀ (t : Table) (bs : List Byte), decodeFn t ((encodeFn bs).map (fwd t)) = .ok bs

/-- R98 through the ports (R95, R97, R130): push any bytes through the encode context, push the symbols
that came out through the decode context, and what the host reads is the bytes. -/
def Obligations.BlockRoundTrip : Prop :=
  ∀ (bs : List Byte) (s : State), s.Legal → s.EncIdle → s.DecIdle →
    ∃ rs ds : List RspWord,
      core.run (bs.length + 1) (s.presentAll (encodeSeq bs)) = .next { s with rsps := s.rsps ++ rs } ∧
      core.run ((outSymbols rs).length + 1) (s.presentAll (decodeSeq (outSymbols rs))) =
        .next { s with rsps := s.rsps ++ ds } ∧
      hostDecode ds = .ok bs

/-- R100: the length laws of both directions. -/
def Obligations.LengthLaws : Prop :=
  (∀ bs : List Byte, (encodeFn bs).length = (4 * bs.length + 4) / 5 ∧
    ((encodeFn bs).filter (fun c => !isPad c)).length = 8 * bs.length / 10 ∧
    ((encodeFn bs).filter isPad).length = if bs.length % 5 = 0 then 0 else 1) ∧
  (∀ (t : Table) (gs : List (BitVec 10)) (c : SymCode) (bytes : List Byte), isPad c = true →
    decodeFn t ((gs.map SymCode.regular ++ [c]).map (fwd t)) = .ok bytes →
    bytes.length = (10 * gs.length + clsWidth (codeCls c)) / 8) ∧
  (∀ (t : Table) (gs : List (BitVec 10)) (bytes : List Byte),
    decodeFn t ((gs.map SymCode.regular).map (fwd t)) = .ok bytes →
    gs.length % 4 = 0 ∧ bytes.length = 5 * gs.length / 4)

/-- R86: exactly the streams that decode: `k` `Regular` symbols, then possibly one padding symbol, the
bits below the last whole byte all zero; how many bytes they give; and so `decode` is not injective. -/
def Obligations.AcceptedStreams : Prop :=
  (∀ (t : Table) (toks : List Token), (∃ bytes, decodeFn t toks = .ok bytes) ↔
    ∃ (gs : List (BitVec 10)) (pad : Option SymCode), (∀ c ∈ pad, isPad c = true) ∧
      toks = (gs.map SymCode.regular ++ pad.toList).map (fwd t) ∧
      match pad with
      | none => 10 * gs.length % 8 = 0
      | some c => bitsNumber (gs.map SymCode.regular ++ [c]) %
          2 ^ ((10 * gs.length + clsWidth (codeCls c)) % 8) = 0) ∧
  (∀ (t : Table) (gs : List (BitVec 10)) (c : SymCode) (bytes : List Byte), isPad c = true →
    decodeFn t ((gs.map SymCode.regular ++ [c]).map (fwd t)) = .ok bytes →
    bytes.length = (10 * gs.length + clsWidth (codeCls c)) / 8) ∧
  (∀ t : Table, ∃ toks toks' : List Token, toks ≠ toks' ∧ decodeFn t toks = .ok [] ∧
    decodeFn t toks' = .ok [])

/-- R101: a padding symbol before the last place and no unknown symbol up to it: the kind, and for the
first padding symbol the position. -/
def Obligations.PaddingPositionLaw : Prop :=
  ∀ (t : Table) (toks : List Token) (p : Nat) (tok : Token) (c : SymCode), toks[p]? = some tok →
    rev t tok = some c → isPad c = true → p + 1 < toks.length →
    (∀ u ≤ p, ∀ tok', toks[u]? = some tok' → rev t tok' ≠ none) →
    let cs := (toks.take (p + 1)).filterMap (rev t)
    (∃ q, decodeFn t toks = failAt .malformedPadding q) ∧
    (firstPad t toks = some p → decodeFn t toks = failAt .malformedPadding
      (if bitsNumber cs % 2 ^ (bitsLength cs % 8) ≠ 0 then p else p + 1))

/-- R102: an unknown symbol with no padding symbol before it. -/
def Obligations.UnknownSymbolLaw : Prop :=
  ∀ (t : Table) (toks : List Token) (u : Nat) (tok : Token), toks[u]? = some tok → rev t tok = none →
    (∀ j < u, ∀ tok', toks[j]? = some tok' → ∃ g, rev t tok' = some (.regular g)) →
    decodeFn t toks = failAt .unknownSymbol u

/-- R103: the last symbol of an encoding of at least two symbols removed. -/
def Obligations.TruncationLaw : Prop :=
  ∀ (t : Table) (bs : List Byte), 2 ≤ (encodeFn bs).length →
    let toks := ((encodeFn bs).map (fwd t)).dropLast
    (bs.length % 5 ≠ 1 → decodeFn t toks = failAt .truncatedStream toks.length) ∧
    (bs.length % 5 = 1 → decodeFn t toks = .ok bs.dropLast)
end

