-- ==== Sys2Proof/Laws/State.lean ====
section
/-! SUPPORT. One lemma per field of State per update, true by rfl, so that no proof unfolds an update
again. The emitting operations are rewritten to `respond`. -/

namespace Sys2Proof.Machine

/-! `respond` (R54) -/

@[simp] theorem respond_eacc (st : BitVec 4) (n : BitVec 2) (d : BitVec 64) (s : State) : (s.respond st n d).eacc = s.eacc := rfl
@[simp] theorem respond_ecnt (st : BitVec 4) (n : BitVec 2) (d : BitVec 64) (s : State) : (s.respond st n d).ecnt = s.ecnt := rfl
@[simp] theorem respond_dacc (st : BitVec 4) (n : BitVec 2) (d : BitVec 64) (s : State) : (s.respond st n d).dacc = s.dacc := rfl
@[simp] theorem respond_dcnt (st : BitVec 4) (n : BitVec 2) (d : BitVec 64) (s : State) : (s.respond st n d).dcnt = s.dcnt := rfl
@[simp] theorem respond_dpos (st : BitVec 4) (n : BitVec 2) (d : BitVec 64) (s : State) : (s.respond st n d).dpos = s.dpos := rfl
@[simp] theorem respond_dst (st : BitVec 4) (n : BitVec 2) (d : BitVec 64) (s : State) : (s.respond st n d).dst = s.dst := rfl
@[simp] theorem respond_depos (st : BitVec 4) (n : BitVec 2) (d : BitVec 64) (s : State) : (s.respond st n d).depos = s.depos := rfl
@[simp] theorem respond_table (st : BitVec 4) (n : BitVec 2) (d : BitVec 64) (s : State) : (s.respond st n d).table = s.table := rfl
@[simp] theorem respond_inputs (st : BitVec 4) (n : BitVec 2) (d : BitVec 64) (s : State) : (s.respond st n d).inputs = s.inputs := rfl
@[simp] theorem respond_rsps (st : BitVec 4) (n : BitVec 2) (d : BitVec 64) (s : State) : (s.respond st n d).rsps = s.rsps ++ [rspWord st n d] := rfl

/-! `setPhase` (R25) -/

@[simp] theorem setPhase_eacc (p : BitVec 2) (s : State) : (s.setPhase p).eacc = s.eacc := rfl
@[simp] theorem setPhase_ecnt (p : BitVec 2) (s : State) : (s.setPhase p).ecnt = s.ecnt := rfl
@[simp] theorem setPhase_dacc (p : BitVec 2) (s : State) : (s.setPhase p).dacc = s.dacc := rfl
@[simp] theorem setPhase_dcnt (p : BitVec 2) (s : State) : (s.setPhase p).dcnt = s.dcnt := rfl
@[simp] theorem setPhase_dpos (p : BitVec 2) (s : State) : (s.setPhase p).dpos = s.dpos := rfl
@[simp] theorem setPhase_dst (p : BitVec 2) (s : State) : (s.setPhase p).dst = dstOf s.err p := rfl
@[simp] theorem setPhase_depos (p : BitVec 2) (s : State) : (s.setPhase p).depos = s.depos := rfl
@[simp] theorem setPhase_table (p : BitVec 2) (s : State) : (s.setPhase p).table = s.table := rfl
@[simp] theorem setPhase_inputs (p : BitVec 2) (s : State) : (s.setPhase p).inputs = s.inputs := rfl
@[simp] theorem setPhase_rsps (p : BitVec 2) (s : State) : (s.setPhase p).rsps = s.rsps := rfl

/-! `raise` (R112) -/

@[simp] theorem raise_eacc (e : DecError) (s : State) : (s.raise e).eacc = s.eacc := rfl
@[simp] theorem raise_ecnt (e : DecError) (s : State) : (s.raise e).ecnt = s.ecnt := rfl
@[simp] theorem raise_dacc (e : DecError) (s : State) : (s.raise e).dacc = s.dacc := rfl
@[simp] theorem raise_dcnt (e : DecError) (s : State) : (s.raise e).dcnt = s.dcnt := rfl
@[simp] theorem raise_dpos (e : DecError) (s : State) : (s.raise e).dpos = s.dpos := rfl
@[simp] theorem raise_dst (e : DecError) (s : State) : (s.raise e).dst = dstOf (errCode e) phaseFailed := rfl
@[simp] theorem raise_depos (e : DecError) (s : State) : (s.raise e).depos = s.dpos := rfl
@[simp] theorem raise_table (e : DecError) (s : State) : (s.raise e).table = s.table := rfl
@[simp] theorem raise_inputs (e : DecError) (s : State) : (s.raise e).inputs = s.inputs := rfl
@[simp] theorem raise_rsps (e : DecError) (s : State) : (s.raise e).rsps = s.rsps ++
      [rspWord (statusCode (errStatus e)) 0 (s.dpos.setWidth 64)] := rfl

/-! `clearEnc` (R69) -/

@[simp] theorem clearEnc_eacc (s : State) : (s.clearEnc).eacc = 0 := rfl
@[simp] theorem clearEnc_ecnt (s : State) : (s.clearEnc).ecnt = 0 := rfl
@[simp] theorem clearEnc_dacc (s : State) : (s.clearEnc).dacc = s.dacc := rfl
@[simp] theorem clearEnc_dcnt (s : State) : (s.clearEnc).dcnt = s.dcnt := rfl
@[simp] theorem clearEnc_dpos (s : State) : (s.clearEnc).dpos = s.dpos := rfl
@[simp] theorem clearEnc_dst (s : State) : (s.clearEnc).dst = s.dst := rfl
@[simp] theorem clearEnc_depos (s : State) : (s.clearEnc).depos = s.depos := rfl
@[simp] theorem clearEnc_table (s : State) : (s.clearEnc).table = s.table := rfl
@[simp] theorem clearEnc_inputs (s : State) : (s.clearEnc).inputs = s.inputs := rfl
@[simp] theorem clearEnc_rsps (s : State) : (s.clearEnc).rsps = s.rsps := rfl

/-! `clearDec` (R84, R114) -/

@[simp] theorem clearDec_eacc (s : State) : (s.clearDec).eacc = s.eacc := rfl
@[simp] theorem clearDec_ecnt (s : State) : (s.clearDec).ecnt = s.ecnt := rfl
@[simp] theorem clearDec_dacc (s : State) : (s.clearDec).dacc = 0 := rfl
@[simp] theorem clearDec_dcnt (s : State) : (s.clearDec).dcnt = 0 := rfl
@[simp] theorem clearDec_dpos (s : State) : (s.clearDec).dpos = 0 := rfl
@[simp] theorem clearDec_dst (s : State) : (s.clearDec).dst = 0 := rfl
@[simp] theorem clearDec_depos (s : State) : (s.clearDec).depos = 0 := rfl
@[simp] theorem clearDec_table (s : State) : (s.clearDec).table = s.table := rfl
@[simp] theorem clearDec_inputs (s : State) : (s.clearDec).inputs = s.inputs := rfl
@[simp] theorem clearDec_rsps (s : State) : (s.clearDec).rsps = s.rsps := rfl

/-! `resetRegs` (R121, R122) -/

@[simp] theorem resetRegs_eacc (s : State) : (s.resetRegs).eacc = 0 := rfl
@[simp] theorem resetRegs_ecnt (s : State) : (s.resetRegs).ecnt = 0 := rfl
@[simp] theorem resetRegs_dacc (s : State) : (s.resetRegs).dacc = 0 := rfl
@[simp] theorem resetRegs_dcnt (s : State) : (s.resetRegs).dcnt = 0 := rfl
@[simp] theorem resetRegs_dpos (s : State) : (s.resetRegs).dpos = 0 := rfl
@[simp] theorem resetRegs_dst (s : State) : (s.resetRegs).dst = 0 := rfl
@[simp] theorem resetRegs_depos (s : State) : (s.resetRegs).depos = 0 := rfl
@[simp] theorem resetRegs_table (s : State) : (s.resetRegs).table = s.table := rfl
@[simp] theorem resetRegs_inputs (s : State) : (s.resetRegs).inputs = s.inputs := rfl
@[simp] theorem resetRegs_rsps (s : State) : (s.resetRegs).rsps = s.rsps := rfl

/-! `present` -/

@[simp] theorem present_eacc (w : CmdWord) (s : State) : (s.present w).eacc = s.eacc := rfl
@[simp] theorem present_ecnt (w : CmdWord) (s : State) : (s.present w).ecnt = s.ecnt := rfl
@[simp] theorem present_dacc (w : CmdWord) (s : State) : (s.present w).dacc = s.dacc := rfl
@[simp] theorem present_dcnt (w : CmdWord) (s : State) : (s.present w).dcnt = s.dcnt := rfl
@[simp] theorem present_dpos (w : CmdWord) (s : State) : (s.present w).dpos = s.dpos := rfl
@[simp] theorem present_dst (w : CmdWord) (s : State) : (s.present w).dst = s.dst := rfl
@[simp] theorem present_depos (w : CmdWord) (s : State) : (s.present w).depos = s.depos := rfl
@[simp] theorem present_table (w : CmdWord) (s : State) : (s.present w).table = s.table := rfl
@[simp] theorem present_inputs (w : CmdWord) (s : State) : (s.present w).inputs = .command w :: s.inputs := rfl
@[simp] theorem present_rsps (w : CmdWord) (s : State) : (s.present w).rsps = s.rsps := rfl

/-! `presentAll` -/

@[simp] theorem presentAll_eacc (is : List Instr) (s : State) : (s.presentAll is).eacc = s.eacc := rfl
@[simp] theorem presentAll_ecnt (is : List Instr) (s : State) : (s.presentAll is).ecnt = s.ecnt := rfl
@[simp] theorem presentAll_dacc (is : List Instr) (s : State) : (s.presentAll is).dacc = s.dacc := rfl
@[simp] theorem presentAll_dcnt (is : List Instr) (s : State) : (s.presentAll is).dcnt = s.dcnt := rfl
@[simp] theorem presentAll_dpos (is : List Instr) (s : State) : (s.presentAll is).dpos = s.dpos := rfl
@[simp] theorem presentAll_dst (is : List Instr) (s : State) : (s.presentAll is).dst = s.dst := rfl
@[simp] theorem presentAll_depos (is : List Instr) (s : State) : (s.presentAll is).depos = s.depos := rfl
@[simp] theorem presentAll_table (is : List Instr) (s : State) : (s.presentAll is).table = s.table := rfl
@[simp] theorem presentAll_inputs (is : List Instr) (s : State) : (s.presentAll is).inputs = is.map (fun i => .command (encode i)) ++ s.inputs := rfl
@[simp] theorem presentAll_rsps (is : List Instr) (s : State) : (s.presentAll is).rsps = s.rsps := rfl

/-! The emitting operations are responses (R56, R57). -/

@[simp] theorem emitSym_eq_respond (tok : Token) (s : State) : s.emitSym tok = s.respond 0 1 tok := rfl

@[simp] theorem respondOk_eq_respond (s : State) : s.respondOk = s.respond 0 0 0 := rfl

@[simp] theorem emitBytes_eq_respond (bs : List Byte) (s : State) :
    s.emitBytes bs = s.respond 0 (BitVec.ofNat 2 bs.length) (byteData bs) := rfl

@[simp] theorem repeatError_eq_respond (s : State) :
    s.repeatError = s.respond (s.err.setWidth 4) 0 (s.depos.setWidth 64) := rfl

/-! `accept` (R45). -/

theorem accept_nil {s : State} (h : s.inputs = []) : s.accept = none := by
  simp [State.accept, h]

theorem accept_cons {s : State} {i : HostInput} {rest : List HostInput} (h : s.inputs = i :: rest) :
    s.accept = some (i, { s with inputs := rest }) := by
  simp [State.accept, h]

/-! A state read through its `DST` (R25). -/

@[simp] theorem phase_of_dst (s : State) {e : BitVec 3} {p : BitVec 2} (h : s.dst = dstOf e p) :
    s.phase = p := by
  simp only [State.phase, h, dstOf]
  exact BitVec.extractLsb'_append_eq_right

@[simp] theorem err_of_dst (s : State) {e : BitVec 3} {p : BitVec 2} (h : s.dst = dstOf e p) :
    s.err = e := by
  simp only [State.err, h, dstOf]
  exact BitVec.extractLsb'_append_eq_left

end Sys2Proof.Machine
end

