-- ==== Sys2Proof/Laws/Fields.lean ====
section
/-! SUPPORT. Bit fields and response words as arithmetic: what `field`, `shiftIn`, `rspWord` and
`byteData` compute, so that no proof goes back to shifts and concatenations. -/

namespace Sys2Proof.Machine

theorem field_eq (v lo len : Nat) : field v lo len = v / 2 ^ lo % 2 ^ len := by
  simp [field, Nat.shiftRight_eq_div_pow]

theorem field_lt (v lo len : Nat) : field v lo len < 2 ^ len :=
  Nat.mod_lt _ (Nat.two_pow_pos len)

@[simp] theorem field_zero_len (v lo : Nat) : field v lo 0 = 0 := by
  simp [field, Nat.mod_one]

theorem field_low_of_lt {v len : Nat} (h : v < 2 ^ len) : field v 0 len = v := by
  simp [field, Nat.mod_eq_of_lt h]

/-- Appending `x` of width `w` multiplies by `2^w` and adds. -/
theorem shiftIn_eq {w x : Nat} (v : Nat) (h : x < 2 ^ w) : shiftIn v w x = v * 2 ^ w + x := by
  rw [shiftIn, ← Nat.shiftLeft_add_eq_or_of_lt h, Nat.shiftLeft_eq]

theorem shiftIn_lt {v k w x : Nat} (hv : v < 2 ^ k) (hx : x < 2 ^ w) :
    shiftIn v w x < 2 ^ (k + w) := by
  rw [shiftIn_eq v hx, Nat.pow_add]
  have : (v + 1) * 2 ^ w ≤ 2 ^ k * 2 ^ w := Nat.mul_le_mul_right _ hv
  rw [Nat.add_mul] at this
  omega

/-- Concatenation (R11) as arithmetic. -/
theorem toNat_append' {n m : Nat} (x : BitVec n) (y : BitVec m) :
    (x ++ y).toNat = x.toNat * 2 ^ m + y.toNat := by
  rw [BitVec.toNat_append, ← Nat.shiftLeft_add_eq_or_of_lt y.isLt, Nat.shiftLeft_eq]

/-! The fields of a response word (R54). -/

theorem rspWord_toNat (st : BitVec 4) (n : BitVec 2) (d : BitVec 64) :
    (rspWord st n d).toNat = d.toNat * 2 ^ 8 + n.toNat * 2 ^ 4 + st.toNat := by
  have h1 := toNat_append' d ((0#2 ++ (n ++ st) : BitVec 8))
  have h2 := toNat_append' 0#2 ((n ++ st : BitVec 6))
  have h3 := toNat_append' n st
  refine h1.trans ?_
  rw [show ((0#2 ++ (n ++ st) : BitVec 8)).toNat = n.toNat * 2 ^ 4 + st.toNat by
    refine h2.trans ?_
    rw [h3]
    simp]
  omega

@[simp] theorem rspStatus_rspWord (st : BitVec 4) (n : BitVec 2) (d : BitVec 64) :
    rspStatus (rspWord st n d) = st := by
  apply BitVec.eq_of_toNat_eq
  simp only [rspStatus, BitVec.extractLsb'_toNat, rspWord_toNat, Nat.shiftRight_eq_div_pow]
  have := st.isLt
  omega

@[simp] theorem rspN_rspWord (st : BitVec 4) (n : BitVec 2) (d : BitVec 64) :
    rspN (rspWord st n d) = n := by
  apply BitVec.eq_of_toNat_eq
  simp only [rspN, BitVec.extractLsb'_toNat, rspWord_toNat, Nat.shiftRight_eq_div_pow]
  have := st.isLt
  have := n.isLt
  omega

@[simp] theorem rspData_rspWord (st : BitVec 4) (n : BitVec 2) (d : BitVec 64) :
    rspData (rspWord st n d) = d := by
  apply BitVec.eq_of_toNat_eq
  simp only [rspData, BitVec.extractLsb'_toNat, rspWord_toNat, Nat.shiftRight_eq_div_pow]
  have := st.isLt
  have := n.isLt
  have := d.isLt
  omega

/-- Bits 7:6 of a response are always 0 (R54). -/
@[simp] theorem rspZero_rspWord (st : BitVec 4) (n : BitVec 2) (d : BitVec 64) :
    (rspWord st n d).extractLsb' 6 2 = 0 := by
  apply BitVec.eq_of_toNat_eq
  simp only [BitVec.extractLsb'_toNat, rspWord_toNat, Nat.shiftRight_eq_div_pow]
  have := st.isLt
  have := n.isLt
  simp
  omega

/-! The byte payload (R57). -/

@[simp] theorem byteData_nil : byteData [] = 0 := rfl

@[simp] theorem byteData_one (b : Byte) : byteData [b] = b.setWidth 64 := by
  simp [byteData]

/-- Two bytes: the one that comes first in the output stream in `DATA[7:0]`. -/
theorem byteData_two (b0 b1 : Byte) :
    (byteData [b0, b1]).toNat = b1.toNat * 2 ^ 8 + b0.toNat := by
  have h0 := b0.isLt
  have h1 := b1.isLt
  have h : b1.toNat <<< 8 < 2 ^ 64 := by rw [Nat.shiftLeft_eq]; omega
  have e : byteData [b0, b1] = (b1.setWidth 64 <<< 8) ||| b0.setWidth 64 := by simp [byteData]
  rw [e, BitVec.toNat_or, BitVec.toNat_shiftLeft, BitVec.toNat_setWidth, BitVec.toNat_setWidth,
    Nat.mod_eq_of_lt (by omega : b1.toNat < 2 ^ 64), Nat.mod_eq_of_lt (by omega : b0.toNat < 2 ^ 64),
    Nat.mod_eq_of_lt h, ← Nat.shiftLeft_add_eq_or_of_lt h0, Nat.shiftLeft_eq]

end Sys2Proof.Machine
end

