-- ==== Sys2Proof/Laws/Tables.lean ====
section
/-! SUPPORT. Symbol codes and their places in the table: the two directions of the place map, and
what the forward and the reverse read do at a place. -/

namespace Sys2Proof.Machine

theorem codeIdx_lt (c : SymCode) : (codeIdx c).toNat < 2 ^ clsWidth (codeCls c) := by
  cases c <;> rename_i i <;> have := i.isLt <;>
    simp only [codeIdx, codeCls, clsWidth, BitVec.toNat_setWidth] <;> omega

/-- A code is its class and its index. -/
theorem codeOf_cls_idx (c : SymCode) : codeOf (codeCls c) (codeIdx c).toNat = some c := by
  cases c <;> rename_i i <;> have := i.isLt <;>
    simp [codeIdx, codeCls, codeOf, clsSize, clsWidth] <;>
    first | omega | (try exact ⟨by omega, by apply BitVec.eq_of_toNat_eq; simp; try omega⟩)

theorem codeAtPlace_codePlace (c : SymCode) : codeAtPlace (codePlace c) = some c := by
  have h := codeIdx_lt c
  have e := codeOf_cls_idx c
  cases c <;> simp only [codePlace, codeCls, clsBase, clsWidth] at h e ⊢ <;>
    simp only [codeAtPlace] <;>
    (repeat' (first | rw [if_pos (by omega)] | rw [if_neg (by omega)])) <;>
    simpa using e

theorem codePlace_injective {c d : SymCode} (h : codePlace c = codePlace d) : c = d := by
  have hc := codeAtPlace_codePlace c
  rw [h, codeAtPlace_codePlace] at hc
  exact (Option.some.inj hc).symm

/-- Every place below 1364 holds the token of a code. -/
theorem codePlace_of_codeAtPlace {p : Nat} (h : p < 1364) :
    ∃ c, codeAtPlace p = some c ∧ codePlace c = p := by
  have key : ∀ (k : Cls) (i : Nat), codeAtPlace p = codeOf k i → i < clsSize k → clsBase k + i = p →
      ∃ c, codeAtPlace p = some c ∧ codePlace c = p := by
    intro k i e hi hp
    rw [e]
    cases k <;> refine ⟨_, (if_pos hi), ?_⟩ <;>
      simp only [clsSize, clsWidth] at hi <;>
      simp only [codePlace, codeCls, codeIdx, BitVec.toNat_setWidth, BitVec.toNat_ofNat, clsBase]
        at hp ⊢ <;> omega
  by_cases h0 : p < 1024
  · exact key .regular p (by simp [codeAtPlace, h0]) (by simp [clsSize, clsWidth]; omega)
      (by simp [clsBase])
  by_cases h1 : p < 1028
  · exact key .pad1 (p - 1024) (by simp [codeAtPlace, h0, h1]) (by simp [clsSize, clsWidth]; omega)
      (by simp [clsBase]; omega)
  by_cases h2 : p < 1044
  · exact key .pad2 (p - 1028) (by simp [codeAtPlace, h0, h1, h2])
      (by simp [clsSize, clsWidth]; omega) (by simp [clsBase]; omega)
  by_cases h3 : p < 1108
  · exact key .pad3 (p - 1044) (by simp [codeAtPlace, h0, h1, h2, h3])
      (by simp [clsSize, clsWidth]; omega) (by simp [clsBase]; omega)
  · exact key .pad4 (p - 1108) (by simp [codeAtPlace, h0, h1, h2, h3])
      (by simp [clsSize, clsWidth]; omega) (by simp [clsBase]; omega)

theorem fwd_eq_get (t : Table) (c : SymCode) : t.symbols[codePlace c]? = some (fwd t c) := by
  simp [fwd]

/-- What a reverse read answers, by the place of the token (R30). -/
theorem rev_eq_of_place {t : Table} {s : Token} {p : Nat} (h : t.symbols[p]? = some s) :
    rev t s = codeAtPlace p := by
  obtain ⟨hp, hs⟩ := List.getElem?_eq_some_iff.1 h
  have : t.symbols.idxOf? s = some p := by
    refine List.idxOf?_eq_some_iff.2 ⟨hp, hs, fun j hj e => ?_⟩
    exact absurd ((t.distinct.getElem_inj_iff).1 (e.trans hs.symm)) (Nat.ne_of_lt hj)
  simp [rev, this]

theorem rev_eq_none_of_not_mem {t : Table} {s : Token} (h : s ∉ t.symbols) : rev t s = none := by
  have : t.symbols.idxOf? s = none := by simpa [List.idxOf?_eq_none_iff] using h
  simp [rev, this]

end Sys2Proof.Machine
end

