-- ==== Sys2Proof/Laws/Ops.lean ====
section
/-! SUPPORT. What each shared operation can do, said once: the guard on reachable register states,
the values the registers take in one, and every outcome of a command and of a step. -/

namespace Sys2Proof.Machine

/-! The guard (93_implementation_defined.md U8). -/

theorem whenLegal_of_legal {s : State} {o : Host.Outcome State Fault Refusal} (h : s.Legal) :
    whenLegal s o = o := if_pos h

theorem whenLegal_of_not_legal {s : State} {o : Host.Outcome State Fault Refusal} (h : ¬ s.Legal) :
    whenLegal s o = .refused .unreachableState := if_neg h

theorem whenLegal_eq_next {s t : State} {o : Host.Outcome State Fault Refusal} :
    whenLegal s o = .next t ↔ s.Legal ∧ o = .next t := by
  by_cases h : s.Legal
  · rw [whenLegal_of_legal h]
    exact ⟨fun e => ⟨h, e⟩, fun e => e.2⟩
  · rw [whenLegal_of_not_legal h]
    constructor
    · intro e
      cases e
    · exact fun e => absurd e.1 h

/-! Legality is about the registers alone. -/

theorem legal_respond {s : State} (st : BitVec 4) (n : BitVec 2) (d : BitVec 64) :
    (s.respond st n d).Legal ↔ s.Legal := Iff.rfl

theorem legal_with_inputs {s : State} (is : List HostInput) :
    ({ s with inputs := is } : State).Legal ↔ s.Legal := Iff.rfl

theorem legal_presentAll {s : State} (is : List Instr) : (s.presentAll is).Legal ↔ s.Legal := Iff.rfl

/-! The values the registers take in a legal state. -/

/-- The five counts of R20. -/
theorem State.EncInv.ecnt_cases {s : State} (h : s.EncInv) :
    s.ecnt = 0 ∨ s.ecnt = 2 ∨ s.ecnt = 4 ∨ s.ecnt = 6 ∨ s.ecnt = 8 := by
  have h1 := h.1
  have h2 := h.2.1
  have hlt := s.ecnt.isLt
  have e : ∀ k : BitVec 5, s.ecnt.toNat = k.toNat → s.ecnt = k := fun k => BitVec.eq_of_toNat_eq
  have : s.ecnt.toNat = 0 ∨ s.ecnt.toNat = 2 ∨ s.ecnt.toNat = 4 ∨ s.ecnt.toNat = 6 ∨
      s.ecnt.toNat = 8 := by omega
  rcases this with h | h | h | h | h
  · exact .inl (e 0 h)
  · exact .inr (.inl (e 2 h))
  · exact .inr (.inr (.inl (e 4 h)))
  · exact .inr (.inr (.inr (.inl (e 6 h))))
  · exact .inr (.inr (.inr (.inr (e 8 h))))

/-- The four counts of R23. -/
theorem State.DecInv.dcnt_cases {s : State} (h : s.DecInv) :
    s.dcnt = 0 ∨ s.dcnt = 2 ∨ s.dcnt = 4 ∨ s.dcnt = 6 := by
  have h1 := h.1
  have h2 := h.2.1
  have e : ∀ k : BitVec 5, s.dcnt.toNat = k.toNat → s.dcnt = k := fun k => BitVec.eq_of_toNat_eq
  have : s.dcnt.toNat = 0 ∨ s.dcnt.toNat = 2 ∨ s.dcnt.toNat = 4 ∨ s.dcnt.toNat = 6 := by omega
  rcases this with h | h | h | h
  · exact .inl (e 0 h)
  · exact .inr (.inl (e 2 h))
  · exact .inr (.inr (.inl (e 4 h)))
  · exact .inr (.inr (.inr (e 6 h)))

/-- The four values of `DST` in a legal state (R25, R27): `RUN`, `PADDED`, and `FAILED` with one of
the two recorded errors. -/
theorem State.StatusInv.dst_cases {s : State} (h : s.StatusInv) :
    s.dst = dstOf 0 phaseRun ∨ s.dst = dstOf 0 phasePadded ∨
      s.dst = dstOf (errCode .unknownSymbol) phaseFailed ∨
      s.dst = dstOf (errCode .malformedPadding) phaseFailed := by
  obtain ⟨h1, h2, h3, -⟩ := h
  simp only [State.phase, State.err] at h1 h2 h3
  generalize s.dst = d at h1 h2 h3
  revert d
  decide

/-! What the commands can do. -/

/-- One command can be answered in one way only: it is refused outside the legal register states, and
otherwise a state follows. -/
theorem exec_outcome (i : Instr) (s : State) :
    (¬ s.Legal ∧ exec i s = .refused .unreachableState) ∨ (s.Legal ∧ ∃ t, exec i s = .next t) := by
  by_cases h : s.Legal
  · refine .inr ⟨h, ?_⟩
    cases i <;> simp only [exec, execEncPush, execEncEnd, execDecPush, execDecEnd, execRidxLookup,
      execRd, execIllegal, whenLegal_of_legal h]
    case encPush => split_ifs <;> exact ⟨_, rfl⟩
    case encEnd => split <;> exact ⟨_, rfl⟩
    all_goals exact ⟨_, rfl⟩
  · refine .inl ⟨h, ?_⟩
    cases i <;> simp only [exec, execEncPush, execEncEnd, execDecPush, execDecEnd, execRidxLookup,
      execRd, execIllegal, whenLegal_of_not_legal h]

theorem legal_of_exec_next {i : Instr} {s t : State} (h : exec i s = .next t) : s.Legal := by
  rcases exec_outcome i s with ⟨-, e⟩ | ⟨hl, -⟩
  · rw [e] at h
    cases h
  · exact hl

/-- Everything a step can do: nothing, the reset input, or one command. -/
theorem step_cases {s t : State} (h : step s = .next t) :
    (s.inputs = [] ∧ t = s) ∨
    (∃ rest, s.inputs = .reset :: rest ∧ t = ({ s with inputs := rest } : State).resetRegs) ∨
    (∃ w rest, s.inputs = .command w :: rest ∧ s.Legal ∧
      exec (decode w) { s with inputs := rest } = .next t) := by
  unfold step at h
  rcases hi : s.inputs with _ | ⟨w | _, rest⟩
  · rw [accept_nil hi] at h
    exact .inl ⟨rfl, (Host.Outcome.next.inj h).symm⟩
  · rw [accept_cons hi] at h
    have he : exec (decode w) { s with inputs := rest } = .next t := h
    exact .inr (.inr ⟨w, rest, rfl, (legal_with_inputs rest).1 (legal_of_exec_next he), he⟩)
  · rw [accept_cons hi] at h
    exact .inr (.inl ⟨_, rfl, (Host.Outcome.next.inj h).symm⟩)

end Sys2Proof.Machine
end

