-- ==== Sys2Proof/Laws/Commands.lean ====
section
/-! SUPPORT. What each command can do, said once, so that no later proof unfolds a meaning: `ENC.PUSH`
and `ENC.END` (40_encoder.md), the arms of `DEC.PUSH` and `DEC.END` (42_decoder.md), the three commands
that write no register; and how a run takes the events at the ports one by one. -/

namespace Sys2Proof.Machine

/-! ### The phases -/

/-- The three phases of a legal state (R25, R27). -/
theorem phase_cases {s : State} (h : s.Legal) :
    s.phase = phaseRun ∨ s.phase = phasePadded ∨ s.phase = phaseFailed := by
  rcases h.2.2.dst_cases with e | e | e | e
  · exact .inl (phase_of_dst s e)
  · exact .inr (.inl (phase_of_dst s e))
  · exact .inr (.inr (phase_of_dst s e))
  · exact .inr (.inr (phase_of_dst s e))

/-- `DST` in `RUN`. -/
theorem dst_run {s : State} (h : s.Legal) (hp : s.phase = phaseRun) : s.dst = dstOf 0 phaseRun := by
  rcases h.2.2.dst_cases with e | e | e | e
  · exact e
  all_goals
    have := phase_of_dst s e; rw [hp] at this; exact absurd this (by decide)

/-- No error is recorded in `RUN`. -/
theorem run_err {s : State} (h : s.Legal) (hp : s.phase = phaseRun) : s.err = 0 := by
  have := h.2.2.2.2.1
  by_contra hc
  have := this.2 hc
  rw [hp] at this; revert this; decide

/-! ### The encode commands -/

/-- `ENC.PUSH` in a legal state, its two arms written out (R66). -/
theorem exec_encPush_of {b : Byte} {s : State} (h : s.Legal) : exec (.encPush b) s =
    if 10 ≤ s.ecnt.toNat + 8 then
      .next { s with
         eacc := BitVec.ofNat 16 (field (shiftIn s.eacc.toNat 8 b.toNat) 0 (s.ecnt.toNat + 8 - 10))
         ecnt := BitVec.ofNat 5 (s.ecnt.toNat + 8 - 10)
         rsps := s.rsps ++ [rspWord 0 1 (fwd s.table (.regular
           (BitVec.ofNat 10 (field (shiftIn s.eacc.toNat 8 b.toNat) (s.ecnt.toNat + 8 - 10) 10))))] }
    else .next { s with
         eacc := BitVec.ofNat 16 (shiftIn s.eacc.toNat 8 b.toNat)
         ecnt := 8
         rsps := s.rsps ++ [rspWord 0 0 0] } := by
  simp only [exec, execEncPush, whenLegal_of_legal h]; rfl

/-- The emitting arm of `ENC.PUSH`, with the accumulator, the count and the group given as the bit
vectors that have the right numbers. -/
theorem exec_encPush_emits {b : Byte} {s : State} (h : s.Legal) {k : Nat}
    (hk : s.ecnt.toNat = k + 2) {acc : BitVec 16} {cnt : BitVec 5} {g : BitVec 10}
    (h1 : (s.eacc.toNat * 256 + b.toNat) % 2 ^ k = acc.toNat) (h2 : cnt.toNat = k)
    (h3 : (s.eacc.toNat * 256 + b.toNat) / 2 ^ k % 1024 = g.toNat) :
    exec (.encPush b) s = .next { s with
      eacc := acc, ecnt := cnt
      rsps := s.rsps ++ [rspWord 0 1 (fwd s.table (.regular g))] } := by
  rw [exec_encPush_of h, if_pos (by omega), hk]
  have hs := shiftIn_eq s.eacc.toNat b.isLt
  simp only [field_eq, hs, show k + 2 + 8 - 10 = k by omega, Nat.pow_zero, Nat.div_one, Nat.reducePow, h1, h3]
  simp only [← h2, BitVec.ofNat_toNat, BitVec.setWidth_eq]

/-- Everything `ENC.PUSH` can do. -/
theorem encPush_next {b : Byte} {s t : State} (h : exec (.encPush b) s = .next t) : s.Legal ∧
    ∃ acc cnt r, t = { s with eacc := acc, ecnt := cnt, rsps := s.rsps ++ [r] } ∧
    (cnt = 0 ∨ cnt = 2 ∨ cnt = 4 ∨ cnt = 6 ∨ cnt = 8) ∧ acc.toNat < 2 ^ cnt.toNat ∧
    (r = rspWord 0 0 0 ∨ ∃ g, r = rspWord 0 1 (fwd s.table (.regular g))) := by
  have hl := legal_of_exec_next h
  refine ⟨hl, ?_⟩
  rw [exec_encPush_of hl] at h
  split_ifs at h with hc
  · cases h
    refine ⟨_, _, _, rfl, ?_, ?_, .inr ⟨_, rfl⟩⟩
    · rcases hl.1.ecnt_cases with e | e | e | e | e <;> rw [e] at hc ⊢ <;> revert hc <;> decide
    · have e : (BitVec.ofNat 5 (s.ecnt.toNat + 8 - 10)).toNat = s.ecnt.toNat + 8 - 10 := by
        have := hl.1.2.1
        rw [BitVec.toNat_ofNat, Nat.mod_eq_of_lt (by omega)]
      rw [e, BitVec.toNat_ofNat]
      exact lt_of_le_of_lt (Nat.mod_le _ _) (field_lt _ _ _)
  · cases h
    refine ⟨_, _, _, rfl, by decide, ?_, .inl rfl⟩
    have h0 : s.ecnt.toNat = 0 := by have := hl.1.1; omega
    have ha : s.eacc.toNat = 0 := by have := hl.1.2.2; rw [h0] at this; omega
    rw [shiftIn_eq _ b.isLt, ha, BitVec.toNat_ofNat]
    have := b.isLt
    simp only [BitVec.reduceToNat]
    omega

/-- Everything `ENC.END` can do. -/
theorem encEnd_next {s t : State} (h : exec .encEnd s = .next t) : s.Legal ∧ ∃ r,
    t = { s with eacc := 0, ecnt := 0, rsps := s.rsps ++ [r] } ∧
    (r = rspWord 0 0 0 ∨ ∃ c, isPad c = true ∧ r = rspWord 0 1 (fwd s.table c)) := by
  have hl := legal_of_exec_next h
  refine ⟨hl, ?_⟩
  have hp : ∀ w r c, tailCode w r = some c → isPad c = true := by
    intro w r c hc
    unfold tailCode codeOf at hc
    split at hc <;> try cases hc
    all_goals (split_ifs at hc; cases hc; rfl)
  simp only [exec, execEncEnd, whenLegal_of_legal hl] at h
  revert h
  have hp := hp s.ecnt.toNat (field s.eacc.toNat 0 s.ecnt.toNat)
  generalize tailCode _ _ = o at hp ⊢
  intro h
  cases o with
  | none => cases h; exact ⟨_, rfl, .inl rfl⟩
  | some c => cases h; exact ⟨_, rfl, .inr ⟨c, hp c rfl, rfl⟩⟩

/-! ### The decode commands -/

/-- `DEC.PUSH` in `RUN` (R78, third test). -/
theorem exec_decPush_run {tok : Token} {s : State} (h : s.Legal) (hp : s.phase = phaseRun) :
    exec (.decPush tok) s = .next (s.pushLooked (rev s.table tok)) := by
  simp only [exec, execDecPush, whenLegal_of_legal h, State.pushSym, hp]
  rw [if_neg (by decide), if_neg (by decide)]

/-- `DEC.PUSH` in `PADDED` (R78, second test). -/
theorem exec_decPush_padded {tok : Token} {s : State} (h : s.Legal) (hp : s.phase = phasePadded) :
    exec (.decPush tok) s = .next (s.raise .malformedPadding) := by
  simp only [exec, execDecPush, whenLegal_of_legal h, State.pushSym, hp]
  rw [if_neg (by decide), if_pos trivial]

/-- `DEC.PUSH` in `FAILED` (R78, first test). -/
theorem exec_decPush_failed {tok : Token} {s : State} (h : s.Legal) (hp : s.phase = phaseFailed) :
    exec (.decPush tok) s = .next s.repeatError := by
  simp only [exec, execDecPush, whenLegal_of_legal h, State.pushSym, hp]
  rw [if_pos trivial]

/-- The one-byte arm of R79, with the accumulator, the count and the byte given as the bit vectors
that have the right numbers. -/
theorem pushRegular_one {s : State} {i : BitVec 10} {k : Nat} (hk : s.dcnt.toNat + 2 = k)
    (hk' : k ≠ 8) {acc : BitVec 16} {cnt : BitVec 5} {b : BitVec 8}
    (h1 : (s.dacc.toNat * 1024 + i.toNat) % 2 ^ k = acc.toNat) (h2 : cnt.toNat = k)
    (h3 : (s.dacc.toNat * 1024 + i.toNat) / 2 ^ k % 256 = b.toNat) :
    s.pushRegular i = { s with
      dacc := acc, dcnt := cnt, dpos := s.dpos + 1
      rsps := s.rsps ++ [rspWord 0 1 (b.setWidth 64)] } := by
  have hs := shiftIn_eq s.dacc.toNat i.isLt
  unfold State.pushRegular
  simp only [if_neg (show ¬ s.dcnt.toNat + 10 = 16 by omega)]
  simp only [field_eq, hs, show s.dcnt.toNat + 10 - 8 = k by omega, Nat.pow_zero,
    Nat.div_one, Nat.reducePow, h1, h3]
  simp only [← h2, BitVec.ofNat_toNat, BitVec.setWidth_eq]
  simp; rfl

/-- Everything the `Regular` arm can do (R79). -/
theorem pushRegular_next {s : State} (h : s.Legal) (i : BitVec 10) :
    ∃ acc cnt n d, s.pushRegular i =
    { s with dacc := acc, dcnt := cnt, dpos := s.dpos + 1, rsps := s.rsps ++ [rspWord 0 n d] } ∧
    (cnt = 0 ∨ cnt = 2 ∨ cnt = 4 ∨ cnt = 6) ∧
    cnt.toNat = (s.dcnt.toNat + 10) % 8 ∧ acc.toNat < 2 ^ cnt.toNat ∧ n.toNat ≤ 2 := by
  unfold State.pushRegular
  simp only
  have hc := h.2.1.dcnt_cases
  split_ifs with h16
  · exact ⟨_, _, _, _, rfl, by simp, by simp; omega, by simp, by simp⟩
  · refine ⟨_, _, _, _, rfl, ?_, ?_, ?_, by simp⟩
    · simp only; rcases hc with hc | hc | hc | hc <;> rw [hc] at h16 ⊢ <;> clear hc <;> revert h16 <;> decide
    · simp only; rcases hc with hc | hc | hc | hc <;> rw [hc] at h16 ⊢ <;> clear hc <;> revert h16 <;> decide
    · have := field_lt (shiftIn s.dacc.toNat 10 i.toNat) 0 (s.dcnt.toNat + 10 - 8)
      have e : (BitVec.ofNat 5 (s.dcnt.toNat + 10 - 8)).toNat = s.dcnt.toNat + 10 - 8 := by
        have := h.2.1.2.1
        rw [BitVec.toNat_ofNat, Nat.mod_eq_of_lt (by omega)]
      rw [e, BitVec.toNat_ofNat]
      exact lt_of_le_of_lt (Nat.mod_le _ _) this

/-- The three outcomes of the padding arm, in arithmetic (R80). -/
theorem pushPad_cases {s : State} {w x : Nat} (hx : x < 2 ^ w) (hw : w ≤ 8) (hl : s.Legal) :
    let a := s.dacc.toNat * 2 ^ w + x
    let n := s.dcnt.toNat + w
    (a % 2 ^ (n % 8) ≠ 0 → s.pushPad w x = { s with
      dst := 0b01010, depos := s.dpos
      rsps := s.rsps ++ [rspWord 2 0 (s.dpos.setWidth 64)] }) ∧
    (a % 2 ^ (n % 8) = 0 → 8 ≤ n → s.pushPad w x = { s with
      dacc := 0, dcnt := 0, dpos := s.dpos + 1, dst := dstOf s.err 1
      rsps := s.rsps ++ [rspWord 0 1 (BitVec.ofNat 64 (a / 2 ^ (n % 8)))] }) ∧
    (a % 2 ^ (n % 8) = 0 → n < 8 → s.pushPad w x = { s with
      dacc := 0, dcnt := 0, dpos := s.dpos + 1, dst := dstOf s.err 1
      rsps := s.rsps ++ [rspWord 0 0 0] }) := by
  have hs := shiftIn_eq s.dacc.toNat hx
  have hf : field (s.dacc.toNat * 2 ^ w + x) 0 ((s.dcnt.toNat + w) % 8) =
      (s.dacc.toNat * 2 ^ w + x) % 2 ^ ((s.dcnt.toNat + w) % 8) := by
    simp [field_eq]
  refine ⟨?_, ?_, ?_⟩
  · intro h
    unfold State.pushPad
    simp only [hs, hf]
    rw [if_pos h]; rfl
  · intro h h8
    unfold State.pushPad
    simp only [hs, hf]
    rw [if_neg (by simpa using h), if_pos h8]
    have hd := hl.2.1.2.1
    have hlt : s.dacc.toNat * 2 ^ w + x < 2 ^ (s.dcnt.toNat + w) := by
      rw [← hs]; exact shiftIn_lt hl.2.1.2.2.1 hx
    have h2 : s.dcnt.toNat + w - (s.dcnt.toNat + w) % 8 = 8 := by omega
    have h3 : (s.dacc.toNat * 2 ^ w + x) / 2 ^ ((s.dcnt.toNat + w) % 8) < 256 := by
      rw [Nat.div_lt_iff_lt_mul (Nat.two_pow_pos _)]
      refine lt_of_lt_of_le hlt ?_
      rw [show (256 : Nat) = 2 ^ 8 by rfl, ← Nat.pow_add]
      exact Nat.pow_le_pow_right (by omega) (by omega)
    have e : BitVec.setWidth 64 (BitVec.ofNat 8 (field (s.dacc.toNat * 2 ^ w + x)
        ((s.dcnt.toNat + w) % 8) (s.dcnt.toNat + w - (s.dcnt.toNat + w) % 8))) =
        BitVec.ofNat 64 ((s.dacc.toNat * 2 ^ w + x) / 2 ^ ((s.dcnt.toNat + w) % 8)) := by
      apply BitVec.eq_of_toNat_eq
      have h4 : (s.dacc.toNat * 2 ^ w + x) / 2 ^ ((s.dcnt.toNat + w) % 8) < 2 ^ 8 := h3
      rw [field_eq, h2, BitVec.toNat_setWidth, BitVec.toNat_ofNat, BitVec.toNat_ofNat,
        Nat.mod_eq_of_lt h4, Nat.mod_eq_of_lt h4]
    simp only [emitBytes_eq_respond, byteData_one, e]; rfl
  · intro h h8
    unfold State.pushPad
    simp only [hs, hf]
    rw [if_neg (by simpa using h), if_neg (by omega)]
    rfl

/-- A hit on a padding symbol takes the padding arm, with the width and the index of its code. -/
theorem pushLooked_pad {s : State} {c : SymCode} (hc : isPad c = true) :
    s.pushLooked (some c) = s.pushPad (clsWidth (codeCls c)) (codeIdx c).toNat ∧
    clsWidth (codeCls c) = 2 * (clsCode (codeCls c)).toNat ∧ clsWidth (codeCls c) ≤ 8 := by
  cases c <;> simp [isPad] at hc <;> rename_i i <;> have hi := i.isLt <;>
    refine ⟨?_, rfl, by simp [codeCls, clsWidth]⟩ <;>
    simp only [State.pushLooked, codeCls, codeIdx] <;> congr 1

/-- Everything `DEC.PUSH` can do: the six arms of R78 to R83. -/
theorem decPush_next {tok : Token} {s t : State} (h : exec (.decPush tok) s = .next t) : s.Legal ∧
    ((s.phase = phaseFailed ∧ t = s.respond (s.err.setWidth 4) 0 (s.depos.setWidth 64)) ∨
     (s.phase = phasePadded ∧ t = s.raise .malformedPadding) ∨
     (s.phase = phaseRun ∧ rev s.table tok = none ∧ t = s.raise .unknownSymbol) ∨
     (s.phase = phaseRun ∧ (∃ c, rev s.table tok = some c ∧ isPad c = true ∧
        (s.dacc.toNat * 2 ^ clsWidth (codeCls c) + (codeIdx c).toNat) %
          2 ^ ((s.dcnt.toNat + clsWidth (codeCls c)) % 8) ≠ 0) ∧ t = s.raise .malformedPadding) ∨
     (s.phase = phaseRun ∧ (∃ c, rev s.table tok = some c ∧ isPad c = true ∧ 
        (s.dacc.toNat * 2 ^ clsWidth (codeCls c) + (codeIdx c).toNat) %
          2 ^ ((s.dcnt.toNat + clsWidth (codeCls c)) % 8) = 0) ∧
        ∃ n d, t = { s with
          dacc := 0, dcnt := 0, dpos := s.dpos + 1, dst := 1
          rsps := s.rsps ++ [rspWord 0 n d] } ∧ n.toNat ≤ 2) ∨
     (s.phase = phaseRun ∧ (∃ i, rev s.table tok = some (.regular i)) ∧
      ∃ acc cnt n d, t = { s with
        dacc := acc, dcnt := cnt, dpos := s.dpos + 1, rsps := s.rsps ++ [rspWord 0 n d] } ∧
    (cnt = 0 ∨ cnt = 2 ∨ cnt = 4 ∨ cnt = 6) ∧
    cnt.toNat = (s.dcnt.toNat + 10) % 8 ∧ acc.toNat < 2 ^ cnt.toNat ∧ n.toNat ≤ 2)) := by
  have hl := legal_of_exec_next h
  refine ⟨hl, ?_⟩
  rcases phase_cases hl with hp | hp | hp
  · rw [exec_decPush_run hl hp] at h
    have h := Host.Outcome.next.inj h
    cases hr : rev s.table tok with
    | none => rw [hr] at h; exact .inr (.inr (.inl ⟨hp, rfl, h.symm⟩))
    | some c =>
      rw [hr] at h
      by_cases hc : isPad c = true
      · obtain ⟨e1, e2, e3⟩ := pushLooked_pad (s := s) hc
        have hx := pushPad_cases (s := s) (codeIdx_lt c) e3 hl
        rw [e1] at h
        obtain ⟨a, b, d⟩ := hx
        by_cases hz : (s.dacc.toNat * 2 ^ clsWidth (codeCls c) + (codeIdx c).toNat) %
            2 ^ ((s.dcnt.toNat + clsWidth (codeCls c)) % 8) = 0
        · refine .inr (.inr (.inr (.inr (.inl ⟨hp, ⟨c, rfl, hc, hz⟩, ?_⟩))))
          rw [run_err hl hp] at b d
          by_cases h8 : 8 ≤ s.dcnt.toNat + clsWidth (codeCls c)
          · exact ⟨_, _, by rw [← h, b hz h8]; rfl, by simp⟩
          · exact ⟨_, _, by rw [← h, d hz (by omega)]; rfl, by simp⟩
        · refine .inr (.inr (.inr (.inl ⟨hp, ⟨c, rfl, hc, hz⟩, ?_⟩)))
          rw [← h, a hz]; rfl
      · cases c with
        | regular i =>
          obtain ⟨acc, cnt, n, d, e, hh⟩ := pushRegular_next hl i
          exact .inr (.inr (.inr (.inr (.inr
            ⟨hp, ⟨i, rfl⟩, acc, cnt, n, d, by rw [← h, ← e]; rfl, hh⟩))))
        | pad1 _ => exact absurd rfl hc
        | pad2 _ => exact absurd rfl hc
        | pad3 _ => exact absurd rfl hc
        | pad4 _ => exact absurd rfl hc
  · rw [exec_decPush_padded hl hp] at h; exact .inr (.inl ⟨hp, (Host.Outcome.next.inj h).symm⟩)
  · rw [exec_decPush_failed hl hp] at h; exact .inl ⟨hp, (Host.Outcome.next.inj h).symm⟩

/-- Everything `DEC.END` can do (R84). -/
theorem decEnd_next {s t : State} (h : exec .decEnd s = .next t) : s.Legal ∧
    t = { s.clearDec with rsps := s.rsps ++ [s.endResponse] } := by
  have hl := legal_of_exec_next h
  refine ⟨hl, ?_⟩
  simp only [exec, execDecEnd, whenLegal_of_legal hl] at h
  exact (Host.Outcome.next.inj h).symm

/-! ### The commands that write no register -/

/-- Everything `RIDX.LOOKUP`, `RD` and an illegal word can do: one response (R74, R89, R91). -/
theorem quiet_next {i : Instr} {s t : State} (hi : isEncCmd i = false) (hd : isDecCmd i = false)
    (h : exec i s = .next t) : s.Legal ∧
    ∃ st n d, t = s.respond st n d ∧ n.toNat ≤ 2 ∧
      (match i with
        | .ridxLookup _ => st = 0 ∨ st = 1
        | .rd _ => st = 0
        | .illegal _ => st = 4 ∧ n = 0 ∧ d = 0
        | .encPush _ | .encEnd | .decPush _ | .decEnd => True) := by
  have hl := legal_of_exec_next h
  refine ⟨hl, ?_⟩
  cases i with
  | ridxLookup tok =>
    simp only [exec, execRidxLookup, whenLegal_of_legal hl, State.answerLookup] at h
    have h := Host.Outcome.next.inj h
    split at h <;> subst h
    · exact ⟨_, _, _, rfl, by decide, .inl rfl⟩
    · exact ⟨_, _, _, rfl, by decide, .inr rfl⟩
  | rd r =>
    simp only [exec, execRd, whenLegal_of_legal hl] at h
    have h := Host.Outcome.next.inj h
    subst h
    exact ⟨_, _, _, rfl, by decide, rfl⟩
  | illegal w =>
    simp only [exec, execIllegal, whenLegal_of_legal hl] at h
    have h := Host.Outcome.next.inj h
    subst h
    exact ⟨_, _, _, rfl, by decide, rfl, rfl, rfl⟩
  | encPush _ => cases hi
  | encEnd => cases hi
  | decPush _ => cases hd
  | decEnd => cases hd

/-! ### The ports -/

/-- No command reads or writes what the host has yet to present. -/
theorem pushLooked_inputs (s : State) (x : List HostInput) (o : Option SymCode) :
    State.pushLooked o { s with inputs := x } = { State.pushLooked o s with inputs := x } := by
  have hp : ∀ w idx, State.pushPad w idx { s with inputs := x } =
      { State.pushPad w idx s with inputs := x } := by
    intro w idx
    unfold State.pushPad
    simp only
    split_ifs <;> rfl
  cases o with
  | none => rfl
  | some c =>
    cases c with
    | regular i =>
      simp only [State.pushLooked, State.pushRegular]
      split_ifs <;> rfl
    | _ => exact hp _ _

theorem pushSym_inputs (s : State) (x : List HostInput) (tok : Token) :
    State.pushSym tok { s with inputs := x } = { State.pushSym tok s with inputs := x } := by
  unfold State.pushSym
  have e : ({ s with inputs := x } : State).phase = s.phase := rfl
  rw [e]
  split_ifs
  · rfl
  · rfl
  · exact pushLooked_inputs s x _

theorem exec_with_inputs {i : Instr} {s t : State} (h : exec i s = .next t) (x : List HostInput) :
    exec i { s with inputs := x } = .next { t with inputs := x } := by
  have hl := legal_of_exec_next h
  have hl' : ({ s with inputs := x } : State).Legal := hl
  cases i with
  | encPush b =>
    rw [exec_encPush_of hl] at h
    rw [exec_encPush_of hl']
    simp only
    split_ifs at h ⊢ <;> (cases h; rfl)
  | encEnd =>
    simp only [exec, execEncEnd, whenLegal_of_legal hl, whenLegal_of_legal hl'] at h ⊢
    revert h
    generalize tailCode _ _ = o
    intro h
    cases o <;> (cases h; rfl)
  | decPush tok =>
    simp only [exec, execDecPush, whenLegal_of_legal hl, whenLegal_of_legal hl'] at h ⊢
    have h := Host.Outcome.next.inj h
    rw [pushSym_inputs, h]
  | decEnd =>
    simp only [exec, execDecEnd, whenLegal_of_legal hl, whenLegal_of_legal hl'] at h ⊢
    cases h; rfl
  | ridxLookup tok =>
    simp only [exec, execRidxLookup, whenLegal_of_legal hl, whenLegal_of_legal hl'] at h ⊢
    have h := Host.Outcome.next.inj h
    subst h
    congr 1
    generalize rev _ tok = o
    cases o <;> rfl
  | rd r =>
    simp only [exec, execRd, whenLegal_of_legal hl, whenLegal_of_legal hl'] at h ⊢
    cases h
    cases r <;> rfl
  | illegal w =>
    simp only [exec, execIllegal, whenLegal_of_legal hl, whenLegal_of_legal hl'] at h ⊢
    cases h; rfl

/-- A command appends one response and leaves the tables and the input ports (R50, R31). -/
theorem exec_answers {i : Instr} {s t : State} (h : exec i s = .next t) :
    (∃ r, t.rsps = s.rsps ++ [r]) ∧ t.table = s.table ∧ t.inputs = s.inputs := by
  cases i with
  | encPush b => obtain ⟨-, _, _, r, rfl, -⟩ := encPush_next h; exact ⟨⟨r, rfl⟩, rfl, rfl⟩
  | encEnd => obtain ⟨-, r, rfl, -⟩ := encEnd_next h; exact ⟨⟨r, rfl⟩, rfl, rfl⟩
  | decPush tok =>
    obtain ⟨-, ⟨-, rfl⟩ | ⟨-, rfl⟩ | ⟨-, -, rfl⟩ | ⟨-, -, rfl⟩ | ⟨-, -, n, d, rfl, -⟩ |
      ⟨-, -, acc, cnt, n, d, rfl, -⟩⟩ := decPush_next h <;> exact ⟨⟨_, rfl⟩, rfl, rfl⟩
  | decEnd => obtain ⟨-, rfl⟩ := decEnd_next h; exact ⟨⟨_, rfl⟩, rfl, rfl⟩
  | ridxLookup tok => obtain ⟨-, _, _, _, rfl, -⟩ := quiet_next rfl rfl h; exact ⟨⟨_, rfl⟩, rfl, rfl⟩
  | rd r => obtain ⟨-, _, _, _, rfl, -⟩ := quiet_next rfl rfl h; exact ⟨⟨_, rfl⟩, rfl, rfl⟩
  | illegal w => obtain ⟨-, _, _, _, rfl, -⟩ := quiet_next rfl rfl h; exact ⟨⟨_, rfl⟩, rfl, rfl⟩

/-- One step more of a run. -/
theorem run_succ {k : Nat} {s t : State} (h : step s = .next t) : core.run (k+1) s = core.run k t := by
  have : core.step s = .next t := h
  simp only [Host.Core.run, this]

/-- A run of presented commands takes the first one as its meaning; the round trip of its word is a
hypothesis here. -/
theorem run_presentAll {i : Instr} {is : List Instr} {s t : State} {k : Nat}
    (hd : decode (encode i) = i) (h : exec i s = .next t) :
    core.run (k + 1) (s.presentAll (i :: is)) = core.run k (t.presentAll is) := by
  refine run_succ ?_
  unfold step
  rw [accept_cons (show (s.presentAll (i :: is)).inputs = .command (encode i) ::
    (is.map (fun i => .command (encode i)) ++ s.inputs) from rfl)]
  simp only [hd]
  refine (exec_with_inputs h _).trans ?_
  rw [← (exec_answers h).2.2]
  rfl

end Sys2Proof.Machine
end

