-- ==== Sys2Proof/Laws/PerInstr.lean ====
section
/-! SUPPORT. Facts made per instruction: the `OPC` field of a command's word (30_encoding.md rules R51
and R52). -/

namespace Sys2Proof.Laws.OpcField

/-- The `OPC` that R52 gives a row; a word of the illegal row has any `OPC` of its own. -/
def opcOfRow : Row → CmdWord → BitVec 8
  | .encPush, _ => 0x01
  | .encEnd, _ => 0x02
  | .decPush, _ => 0x03
  | .decEnd, _ => 0x04
  | .ridxLookup, _ => 0x05
  | .rd, _ => 0x06
  | .illegal, w => opcOf w

/-- The word of a command carries the opcode of its row in bits 7:0. -/
def Statement (i : Instr) : Prop := opcOf (encode i) = opcOfRow i.row (encode i)

theorem opcOf_cmdWord (arg : BitVec 64) (opc : BitVec 8) : opcOf (cmdWord arg opc) = opc :=
  BitVec.extractLsb'_append_eq_right

theorem encPush (b : Byte) : Statement (.encPush b) := opcOf_cmdWord _ _

theorem encEnd : Statement .encEnd := opcOf_cmdWord _ _

theorem decPush (s : Token) : Statement (.decPush s) := opcOf_cmdWord _ _

theorem decEnd : Statement .decEnd := opcOf_cmdWord _ _

theorem ridxLookup (s : Token) : Statement (.ridxLookup s) := opcOf_cmdWord _ _

theorem rd (r : Reg) : Statement (.rd r) := opcOf_cmdWord _ _

theorem illegal (w : CmdWord) : Statement (.illegal w) := rfl

end Sys2Proof.Laws.OpcField
end

