-- ==== Sys2Proof/Machine/Assembler.lean ====
section
/-! DEFINITION. The assembler syntax of 30_encoding.md rule R63, one command per line, with the two
pseudo-instructions of R64. It is the spec's notation for command sequences and stands outside the
block; `none` is an error of the assembler. Lexical details R63 does not give: log entry 12. -/

namespace Sys2Proof.Machine

/-- Blanks between the words of a line. -/
def isBlank (c : Char) : Bool := c == ' ' || c == '\t'

/-- A text without the blanks at its two ends. -/
def trimBlanks (cs : List Char) : List Char :=
  ((cs.dropWhile isBlank).reverse.dropWhile isBlank).reverse

/-- The pieces of a text between the separators. -/
def splitAtChar (sep : Char) : List Char → List (List Char)
  | [] => [[]]
  | c :: cs =>
    match splitAtChar sep cs with
    | [] => [[c]]
    | w :: ws => if c == sep then [] :: w :: ws else (c :: w) :: ws

/-- The value of a digit, of either case. -/
def digitVal (c : Char) : Option Nat :=
  if '0' ≤ c ∧ c ≤ '9' then some (c.toNat - '0'.toNat)
  else if 'a' ≤ c ∧ c ≤ 'f' then some (c.toNat - 'a'.toNat + 10)
  else if 'A' ≤ c ∧ c ≤ 'F' then some (c.toNat - 'A'.toNat + 10)
  else none

/-- The digits of a number in a base, after the value `n` of those already read. -/
def readDigits (base : Nat) (n : Nat) : List Char → Option Nat
  | [] => some n
  | c :: cs =>
    match digitVal c with
    | some d => if d < base then readDigits base (n * base + d) cs else none
    | none => none

/-- A number of at least one digit; how many digits, and zeros before the first, are not limited here
(DESIGN CHOICE, log entry 12). -/
def readBase (base : Nat) (cs : List Char) : Option Nat :=
  if cs.isEmpty then none else readDigits base 0 cs

/-- A number written `0x` and hexadecimal digits, or in decimal; a capital `0X` is no number (DESIGN
CHOICE, log entry 12). -/
def readNumber : List Char → Option Nat
  | '0' :: 'x' :: cs => readBase 16 cs
  | cs => readBase 10 cs

/-- `<byte>`: 0 to 255, written `0xNN` or decimal (R63). R63 does not say whether the two digits of
`0xNN` are required; here any positive number of digits is taken, as long as the value is below 256
(DESIGN CHOICE, log entry 12). -/
def readByte (cs : List Char) : Option Byte :=
  match readNumber cs with
  | some n => if n < 256 then some (BitVec.ofNat 8 n) else none
  | none => none

/-- `i]`, the end of a symbol code; that the index is decimal is a DESIGN CHOICE (log entry 12). -/
def readIndex (cs : List Char) : Option Nat :=
  match cs.reverse with
  | ']' :: ds => readBase 10 ds.reverse
  | _ => none

/-- The symbol codes `R[i]`, `P1[i]` to `P4[i]`; a code that is not valid is an error. -/
def readCode (cs : List Char) : Option SymCode :=
  match cs with
  | 'R' :: '[' :: is => (readIndex is).bind (codeOf .regular)
  | 'P' :: '1' :: '[' :: is => (readIndex is).bind (codeOf .pad1)
  | 'P' :: '2' :: '[' :: is => (readIndex is).bind (codeOf .pad2)
  | 'P' :: '3' :: '[' :: is => (readIndex is).bind (codeOf .pad3)
  | 'P' :: '4' :: '[' :: is => (readIndex is).bind (codeOf .pad4)
  | _ => none

/-- `<sym>`: a raw token, `#0x` and 1 to 16 hexadecimal digits (that none is an error: DESIGN CHOICE,
log entry 12), or a symbol code, which stands for
the token `FWD(cls, i)` of the table in use. -/
def readSym (t : Table) (cs : List Char) : Option Token :=
  match cs with
  | '#' :: '0' :: 'x' :: ds =>
    if ds.length ≤ 16 then (readBase 16 ds).map (BitVec.ofNat 64) else none
  | _ => (readCode cs).map (fwd t)

/-- `<reg>`: a register name of R34, or its number 0 to 6; that the number may also be hexadecimal is a
DESIGN CHOICE (log entry 12). -/
def readRegister (cs : List Char) : Option Reg :=
  if cs = "EACC".toList then some .eacc
  else if cs = "ECNT".toList then some .ecnt
  else if cs = "DACC".toList then some .dacc
  else if cs = "DCNT".toList then some .dcnt
  else if cs = "DPOS".toList then some .dpos
  else if cs = "DST".toList then some .dst
  else if cs = "DEPOS".toList then some .depos
  else
    match readNumber cs with
    | some n => if n ≤ 6 then Reg.ofNumber (BitVec.ofNat 4 n) else none
    | none => none

/-- Every operand of a list, or an error. -/
def readAll {α : Type} (read : List Char → Option α) : List (List Char) → Option (List α)
  | [] => some []
  | cs :: rest =>
    match read cs, readAll read rest with
    | some a, some as => some (a :: as)
    | _, _ => none

/-- The operands of a pseudo-instruction: none, or a list with commas. -/
def operandList (cs : List Char) : List (List Char) :=
  if cs.isEmpty then [] else (splitAtChar ',' cs).map trimBlanks

/-- One line: the commands it stands for. A line with nothing but a comment stands for none. -/
def assembleLine (t : Table) (line : List Char) : Option (List Instr) :=
  let text := trimBlanks (line.takeWhile (fun c => c != ';'))
  let name := text.takeWhile (fun c => !isBlank c)
  let rest := trimBlanks (text.dropWhile (fun c => !isBlank c))
  if name = [] then some []
  else if name = "ENC.PUSH".toList then (readByte rest).map (fun b => [.encPush b])
  else if name = "ENC.END".toList then if rest = [] then some [.encEnd] else none
  else if name = "DEC.PUSH".toList then (readSym t rest).map (fun s => [.decPush s])
  else if name = "DEC.END".toList then if rest = [] then some [.decEnd] else none
  else if name = "RIDX.LOOKUP".toList then (readSym t rest).map (fun s => [.ridxLookup s])
  else if name = "RD".toList then (readRegister rest).map (fun r => [.rd r])
  else if name = "ENCODE".toList then (readAll readByte (operandList rest)).map encodeSeq
  else if name = "DECODE".toList then (readAll (readSym t) (operandList rest)).map decodeSeq
  else none

/-- A text of lines. -/
def assemble (t : Table) (text : List Char) : Option (List Instr) :=
  (readAll (assembleLine t) (splitAtChar '\n' text)).map List.flatten

end Sys2Proof.Machine
end

