-- ==== Sys2Proof/Tests/Slice0.lean ====
section
/-! SUPPORT. The model's own tests. Expected results are from spec/: the worked examples of the command
rules and the vectors of 95_test_vectors.md, under their fixture table `TT0` (decision D31), which the
model itself never uses. The second half shows, for every statement with hypotheses, a concrete state
and operands that meet them. -/

namespace Sys2Proof.Tests

open Sys2Proof Sys2Proof.Machine

/-! ### The fixture -/

/-- The token `TT0` has at a place of `Table.symbols`: `0xE0000 + 0x400 * cls + idx`. -/
def tt0At (p : Nat) : Nat :=
  0xE0000 + (if p < 1024 then p else if p < 1028 then 0x400 + (p - 1024)
    else if p < 1044 then 0x800 + (p - 1028) else if p < 1108 then 0xC00 + (p - 1044)
    else 0x1000 + (p - 1108))

/-- `TT0` of 95_test_vectors.md. -/
def tt0 : Table where
  symbols := (List.range 1364).map (fun p => BitVec.ofNat 64 (tt0At p))
  size := by simp
  distinct := by
    refine List.Nodup.map_on ?_ List.nodup_range
    intro x hx y hy h
    have hn := congrArg BitVec.toNat h
    simp only [List.mem_range, BitVec.toNat_ofNat, tt0At] at hx hy hn
    split_ifs at hn <;> omega

/-- Reset, with `TT0` supplied. -/
def start : State := { State.reset with table := tt0 }

/-- An encode context in the middle of a stream. -/
def encAt (acc : Acc) (cnt : Cnt) : State := { start with eacc := acc, ecnt := cnt }

/-- A decode context in the middle of a stream. -/
def decAt (acc : Acc) (cnt : Cnt) (pos : Pos) (dst : BitVec 5) (depos : Pos) : State :=
  { start with dacc := acc, dcnt := cnt, dpos := pos, dst := dst, depos := depos }

/-- `RUN`, `PADDED`, and `FAILED` with `UnknownSymbol` at position 2. -/
def running : State := decAt 0x3B 6 3 0b00000 0
def padded : State := decAt 0 0 1 0b00001 0
def failed : State := decAt 0x3 2 2 0b00110 2

/-- A state the block can never be in (93_implementation_defined.md U8): an odd count. -/
def unreachable : State := encAt 0 1

/-- What a step leaves, in the fields a test looks at. -/
def seen {α : Type} (f : State → α) (o : Host.Outcome State Fault Refusal) : Option α :=
  match o with
  | .next t => some (f t)
  | .fault _ => none
  | .refused _ => none

/-- The encode context, the responses, and the two decode registers an encode command could disturb. -/
def encSide (t : State) : Acc × Cnt × Pos × BitVec 5 × List RspWord :=
  (t.eacc, t.ecnt, t.dpos, t.dst, t.rsps)

/-- The decode context and the responses. -/
structure DecSide where
  dacc : Acc
  dcnt : Cnt
  dpos : Pos
  dst : BitVec 5
  depos : Pos
  rsps : List RspWord
deriving DecidableEq, Repr

def decSide (t : State) : DecSide := ⟨t.dacc, t.dcnt, t.dpos, t.dst, t.depos, t.rsps⟩

/-! ### WellFormed: the one check refuses an illegal term whose word is a command -/

theorem test_wf_refuses_illegal_of_enc_push : (Instr.illegal 0x4801).wellFormed = false := by decide
theorem test_wf_refuses_illegal_of_enc_end : (Instr.illegal 0x02).wellFormed = false := by decide
theorem test_wf_refuses_illegal_of_dec_push :
    (Instr.illegal 0xFFFFFFFFFFFFFFFF03).wellFormed = false := by decide
theorem test_wf_refuses_illegal_of_dec_end : (Instr.illegal 0x04).wellFormed = false := by decide
theorem test_wf_refuses_illegal_of_lookup : (Instr.illegal 0x05).wellFormed = false := by decide
theorem test_wf_refuses_illegal_of_rd : (Instr.illegal 0x0606).wellFormed = false := by decide
theorem test_wf_accepts_reserved_words :
    (Instr.illegal 0x00).wellFormed = true ∧ (Instr.illegal 0x07).wellFormed = true ∧
    (Instr.illegal 0xFF).wellFormed = true ∧ (Instr.illegal 0x010001).wellFormed = true ∧
    (Instr.illegal 0x0102).wellFormed = true ∧ (Instr.illegal 0x0104).wellFormed = true ∧
    (Instr.illegal 0x0706).wellFormed = true ∧ (Instr.illegal 0x1006).wellFormed = true := by decide

/-! ### Decoding: words written out bit by bit from R51 and R52 -/

theorem test_decode_enc_push :
    decode (0#56 ++ 0b01001000#8 ++ 0b00000001#8) = .encPush 0x48 := by decide
theorem test_decode_enc_end : decode (0#64 ++ 0b00000010#8) = .encEnd := by decide
theorem test_decode_dec_push :
    decode (0#44 ++ 0b11100000000100100001#20 ++ 0b00000011#8) = .decPush 0xE0121 := by decide
theorem test_decode_dec_push_all_ones :
    decode ((~~~ 0#64) ++ 0b00000011#8) = .decPush 0xFFFFFFFFFFFFFFFF := by decide
theorem test_decode_dec_end : decode (0#64 ++ 0b00000100#8) = .decEnd := by decide
theorem test_decode_lookup :
    decode (0#44 ++ 0b11100000010000000011#20 ++ 0b00000101#8) = .ridxLookup 0xE0403 := by decide
theorem test_decode_rd :
    decode (0#60 ++ 0b0000#4 ++ 0b00000110#8) = .rd .eacc ∧
    decode (0#60 ++ 0b0001#4 ++ 0b00000110#8) = .rd .ecnt ∧
    decode (0#60 ++ 0b0010#4 ++ 0b00000110#8) = .rd .dacc ∧
    decode (0#60 ++ 0b0011#4 ++ 0b00000110#8) = .rd .dcnt ∧
    decode (0#60 ++ 0b0100#4 ++ 0b00000110#8) = .rd .dpos ∧
    decode (0#60 ++ 0b0101#4 ++ 0b00000110#8) = .rd .dst ∧
    decode (0#60 ++ 0b0110#4 ++ 0b00000110#8) = .rd .depos := by decide
theorem test_decode_illegal :
    decode (0#60 ++ 0b0111#4 ++ 0b00000110#8) = .illegal 0x0706 ∧
    decode (0#59 ++ 0b10000#5 ++ 0b00000110#8) = .illegal 0x1006 ∧
    decode (0#55 ++ 0b100000000#9 ++ 0b00000001#8) = .illegal 0x010001 ∧
    decode (1#64 ++ 0b00000010#8) = .illegal 0x0102 ∧
    decode (1#64 ++ 0b00000100#8) = .illegal 0x0104 ∧
    decode (0#64 ++ 0b00000000#8) = .illegal 0x00 ∧
    decode (0#64 ++ 0b00000111#8) = .illegal 0x07 ∧
    decode (0#64 ++ 0b11111111#8) = .illegal 0xFF := by decide
theorem test_encode_words :
    encode (.encPush 0x48) = 0x4801 ∧ encode (.decPush 0xE0121) = 0x0E012103 ∧
    encode (.rd .dst) = 0x0506 := by decide
theorem test_table_word :
    decodeTableWord 72 0x4801 = some (.encPush 0x48) ∧ decodeTableWord 8 0x02 = some .encEnd ∧
    decodeTableWord 8 0x102 = none ∧ decodeTableWord 80 0x02 = none := by decide

/-! ### Commands: the worked examples of the rules -/

/-- R66, its worked example. -/
theorem test_enc_push_group :
    seen encSide (exec (.encPush 0x34) (encAt 0x12 8)) = some (0x34, 6, 0, 0, [0xE004810]) := by
  decide +kernel
/-- V-E13, last push: `a = 0x0EEF`, `R[955]`, two bits stay. -/
theorem test_enc_push_two_bits_stay :
    seen encSide (exec (.encPush 0xEF) (encAt 0x0E 4)) = some (0x3, 2, 0, 0, [0xE03BB10]) := by
  decide +kernel
/-- R69, its worked example: `P1[3]`. -/
theorem test_enc_end_pad1 :
    seen encSide (exec .encEnd (encAt 0x3 2)) = some (0, 0, 0, 0, [0xE040310]) := by decide +kernel
/-- V-E2: the 8-bit tail, `P4[255]`. -/
theorem test_enc_end_pad4 :
    seen encSide (exec .encEnd (encAt 0xFF 8)) = some (0, 0, 0, 0, [0xE10FF10]) := by decide +kernel
/-- R79, its worked example: two bytes, the earlier one lowest. -/
theorem test_dec_push_two_bytes :
    seen decSide (exec (.decPush 0xE009A) (decAt 0x1E 6 3 0 0)) = some ⟨0, 0, 4, 0, 0, [0x9A7820]⟩ := by
  decide +kernel
/-- R80, its worked example: `P1[3]` closes the stream. -/
theorem test_dec_push_padding :
    seen decSide (exec (.decPush 0xE0403) running) = some ⟨0, 0, 4, 0b00001, 0, [0xEF10]⟩ := by
  decide +kernel
/-- R84, its worked example: `TruncatedStream` at 1. -/
theorem test_dec_end_truncated :
    seen decSide (exec .decEnd (decAt 0 2 1 0 0)) = some ⟨0, 0, 0, 0, 0, [0x103]⟩ := by decide +kernel
/-- R84: the recorded error is the result, and the context is cleared. -/
theorem test_dec_end_failed :
    seen decSide (exec .decEnd failed) = some ⟨0, 0, 0, 0, 0, [0x201]⟩ := by decide +kernel
/-- R74, its worked examples (V-L4, V-L5): the last symbol of `Pad1`, and one past it. -/
theorem test_lookup_hit :
    seen decSide (exec (.ridxLookup 0xE0403) running) = some ⟨0x3B, 6, 3, 0, 0, [0x40310]⟩ := by
  decide +kernel
theorem test_lookup_miss :
    seen decSide (exec (.ridxLookup 0xE0404) running) = some ⟨0x3B, 6, 3, 0, 0, [0x01]⟩ := by
  decide +kernel
/-- R89, its worked example. -/
theorem test_rd_ecnt :
    seen encSide (exec (.rd .ecnt) (encAt 0xBC 8)) = some (0xBC, 8, 0, 0, [0x810]) := by decide +kernel
/-- R89: `DST` reads as `{ERR, PHASE}` and is not cleared by the read. -/
theorem test_rd_dst :
    seen decSide (exec (.rd .dst) failed) = some ⟨0x3, 2, 2, 0b00110, 2, [0x610]⟩ := by decide +kernel
/-- R91: the all-zero word in the middle of a stream. -/
theorem test_illegal_word :
    seen decSide (exec (.illegal 0) running) = some ⟨0x3B, 6, 3, 0, 0, [0x04]⟩ := by decide +kernel
/-! ### Shared operations -/

/-- R112 on the worked examples of R81 (an unknown symbol straight after reset) and R82. -/
theorem test_raise_unknown : decSide (start.raise .unknownSymbol) = ⟨0, 0, 0, 0b00110, 0, [0x01]⟩ := by
  decide +kernel
theorem test_raise_malformed :
    decSide (padded.raise .malformedPadding) = ⟨0, 0, 1, 0b01010, 1, [0x102]⟩ := by decide +kernel
/-- R24: the position wraps to 0. -/
theorem test_position_wraps : nextPos 0xFFFFFFFF = 0 := by decide
/-- R134: complete when nothing is left to present and both contexts are idle. -/
theorem test_complete_run :
    start.Complete ∧ ¬ running.Complete ∧ ¬ (encAt 0xFF 8).Complete ∧
    ¬ (start.present 0x02).Complete := by decide

/-! ### The step -/

/-- R121, R123: the reset input, in a state no run from reset reaches. -/
theorem test_reset_input :
    seen encSide (step { unreachable with dst := 3, inputs := [.reset], rsps := [0x01] }) =
      some (0, 0, 0, 0, [0x01]) := by decide +kernel
/-- The first command after reset, through `withFetchWord` (P-A: `ENC.PUSH 0x48`). -/
theorem test_first_command :
    seen encSide (step (State.reset.withFetchWord 72 0x4801)) = some (0x48, 8, 0, 0, [0x00]) := by
  decide +kernel
/-- 93_implementation_defined.md U8. -/
theorem test_unreachable_refused : exec (.rd .eacc) unreachable = .refused .unreachableState := by rfl

/-! ### The stream functions and the assembler -/

/-- V-E13. -/
theorem test_encode_fn :
    encodeFn [0xDE, 0xAD, 0xBE, 0xEF] = [.regular 890, .regular 731, .regular 955, .pad1 3] := by
  decide +kernel
/-- R96, clause 4, on `P4[255] R[0]` (the example of R82), and clause 2 on `R[72]` then an unknown. -/
theorem test_decode_fn :
    decodeFn tt0 [0xE10FF, 0xE0000] = .fail 2 1 ∧ decodeFn tt0 [0xE0048, 0x41] = .fail 1 1 := by
  decide +kernel
/-- R86: `P1[0]` alone decodes to the empty byte sequence. -/
theorem test_decode_fn_short_padding : decodeFn tt0 [0xE0400] = .ok [] := by decide +kernel
/-- R63, R64. -/
theorem test_assemble :
    assemble tt0 "ENC.PUSH 0x48 ; a byte\nRD DST\nDECODE R[72], #0x41\nENCODE".toList =
      some [.encPush 0x48, .rd .dst, .decPush 0xE0048, .decPush 0x41, .decEnd, .encEnd] := by
  decide +kernel
/-- R63: a code that is not valid, a byte above 255 and a register above 6 are errors. -/
theorem test_assemble_errors :
    assemble tt0 "DEC.PUSH P1[4]".toList = none ∧ assemble tt0 "ENC.PUSH 256".toList = none ∧
    assemble tt0 "RD 7".toList = none := by decide +kernel

/-! ### Facts the witnesses share -/

theorem miss_of_not_mem {t : Table} {tok : Token} (h : tok ∉ t.symbols) : ∀ c, fwd t c ≠ tok :=
  fun _ e => h (e ▸ List.getElem_mem _)

theorem unknown_0x41 : ∀ c, fwd tt0 c ≠ 0x41 := miss_of_not_mem (by decide +kernel)

theorem runs {i : Instr} {s : State} (h : s.Legal) : ∃ t, exec i s = .next t := by
  rcases exec_outcome i s with ⟨h', -⟩ | ⟨-, t, e⟩
  · exact absurd h h'
  · exact ⟨t, e⟩

theorem steps {s : State} {w : CmdWord} (h : s.Legal) : ∃ t, step (s.present w) = .next t := by
  obtain ⟨t, e⟩ := runs (i := decode w) h
  exact ⟨t, e⟩

/-! ### Witnesses: encoding and the step -/

theorem witness_DecodeAndEncodeAgree :
    (Instr.encPush 0xFF).wellFormed = true ∧ Instr.encEnd.wellFormed = true ∧
    (Instr.decPush 0xFFFFFFFFFFFFFFFF).wellFormed = true ∧ Instr.decEnd.wellFormed = true ∧
    (Instr.ridxLookup 0).wellFormed = true ∧ (Instr.rd .depos).wellFormed = true ∧
    (Instr.illegal 0).wellFormed = true := by decide

/-- Each clause at the ends of its range. -/
theorem witness_EveryWordDecodesByTheOpcodeMap :
    let opc := fun c : CmdWord => c.toNat % 256
    let arg := fun c : CmdWord => c.toNat / 256
    (opc 0xFF01 = 0x01 ∧ arg 0xFF01 = 255) ∧ (opc 0x010001 = 0x01 ∧ arg 0x010001 = 256) ∧
    (opc 0x02 = 0x02 ∧ arg 0x02 = 0) ∧ (opc 0x0102 = 0x02 ∧ arg 0x0102 = 1) ∧
    (opc 0xFFFFFFFFFFFFFFFF03 = 0x03 ∧ arg 0xFFFFFFFFFFFFFFFF03 = 2 ^ 64 - 1) ∧
    (opc 0x04 = 0x04 ∧ arg 0x04 = 0) ∧ (opc 0x0104 = 0x04 ∧ arg 0x0104 = 1) ∧
    (opc 0x05 = 0x05 ∧ arg 0x05 = 0) ∧ (opc 0x0606 = 0x06 ∧ arg 0x0606 = 6) ∧
    (opc 0x0706 = 0x06 ∧ arg 0x0706 = 7) ∧ opc 0x00 = 0x00 ∧ opc 0x07 = 0x07 ∧ opc 0xFF = 0xFF := by
  decide

/-- A word for every line, and a word for none. -/
theorem witness_OpcodeTableLinesDecodeToTheirRow :
    (∀ o ∈ opcodeTable, o.takes o.value = true) ∧ (∀ o ∈ opcodeTable, o.takes 0x07 = false) := by decide

theorem witness_StepRunsTheDecodedCommand :
    (start.present 0x4801).inputs = .command 0x4801 :: [] ∧ (Instr.rd .dst).wellFormed = true := by decide

theorem witness_NoCommandNoResponse : start.inputs = [] := rfl

theorem witness_ResetInputClearsEveryRegister :
    ({ unreachable with inputs := [.reset, .command 0x02] } : State).inputs =
      .reset :: [.command 0x02] := rfl

theorem witness_RegistersResetAndTheirWriters :
    (∃ t, exec (.decPush 0xE0048) (encAt 0x12 8) = .next t) ∧ isEncCmd (.decPush 0xE0048) = false ∧
    (∃ t, exec (.encPush 0x34) running = .next t) ∧ isDecCmd (.encPush 0x34) = false ∧
    (∃ t, exec .encEnd (encAt 0x12 8) = .next t) ∧ (∃ t, exec .decEnd running = .next t) :=
  ⟨runs (by decide), by decide, runs (by decide), by decide, runs (by decide), runs (by decide)⟩

theorem witness_EncodeInvariantHoldsAndIsKept :
    let s := (encAt 0xFF 8).present 0x4801
    ((s.ecnt = 0 ∨ s.ecnt = 2 ∨ s.ecnt = 4 ∨ s.ecnt = 6 ∨ s.ecnt = 8) ∧
      s.eacc.toNat < 2 ^ s.ecnt.toNat) ∧ ∃ t, step s = .next t :=
  ⟨by decide, steps (by decide)⟩

theorem witness_DecodeInvariantHoldsAndIsKept :
    let s := running.present 0x0E040303
    ((s.dcnt = 0 ∨ s.dcnt = 2 ∨ s.dcnt = 4 ∨ s.dcnt = 6) ∧ s.dacc.toNat < 2 ^ s.dcnt.toNat ∧
      (s.phase = phasePadded → s.dcnt = 0 ∧ s.dacc = 0)) ∧ (∃ t, step s = .next t) ∧
    padded.phase = phasePadded :=
  ⟨by decide, steps (by decide), by decide⟩

theorem witness_StatusInvariantHoldsAndIsKept :
    let s := padded.present 0x0E000003
    ((s.phase = phaseFailed ↔ s.err ≠ 0) ∧ (s.err = 0 ∨ s.err = 1 ∨ s.err = 2) ∧ s.phase ≠ 3 ∧
      (s.phase ≠ phaseFailed → s.depos = 0)) ∧ (∃ t, step s = .next t) ∧
    ∃ t, exec .decEnd running = .next t ∧ t.rsps = running.rsps ++ [0x303] ∧ rspStatus 0x303 = 3 :=
  ⟨by decide, steps (by decide), _, rfl, by decide +kernel, by decide⟩

theorem witness_PositionAndCountStayTogether :
    let s := running.present 0x04103
    (s.phase = phaseRun ∧ s.dcnt.toNat = 10 * s.dpos.toNat % 8) ∧ (∃ t, step s = .next t) ∧
    (failed.phase = phaseFailed ∧ failed.depos = failed.dpos) :=
  ⟨by decide, steps (by decide), by decide⟩

theorem witness_EveryCommandIsAnsweredOnceInOrder : running.Legal ∧ running.inputs = [] := by decide

theorem witness_TheBlockNeverStops :
    failed.Legal ∧ ¬ unreachable.Legal ∧
    ∃ rest, ({ unreachable with inputs := [.reset] } : State).inputs = .reset :: rest :=
  ⟨by decide, by decide, [], rfl⟩

theorem witness_UnreachableStatesAreRefused :
    ¬ unreachable.Legal ∧ ¬ (encAt 0x100 8).Legal ∧ ¬ (encAt 0 10).Legal ∧
    ¬ (decAt 0 8 0 0 0).Legal ∧ ¬ (decAt 4 2 0 0 0).Legal ∧ ¬ (decAt 0 2 1 0b00001 0).Legal ∧
    ¬ (decAt 0 0 0 0b00011 0).Legal ∧ ¬ (decAt 0 0 0 0b01110 0).Legal ∧
    ¬ (decAt 0 0 0 0b00010 0).Legal ∧ ¬ (decAt 0 0 1 0 1).Legal ∧ start.Legal := by
  refine ⟨?_, ?_, ?_, ?_, ?_, ?_, ?_, ?_, ?_, ?_, ?_⟩ <;> decide

theorem witness_TablesNeverChange :
    ∃ t, step ((encAt 0xFF 8).present 0x02) = .next t := steps (by decide)

theorem witness_StatusOfEachCommand :
    (∃ t, exec (.encPush 0) running = .next t) ∧ (∃ t, exec .encEnd running = .next t) ∧
    (∃ t, exec (.decPush 0x41) running = .next t) ∧ (∃ t, exec .decEnd running = .next t) ∧
    (∃ t, exec (.ridxLookup 0x41) running = .next t) ∧ (∃ t, exec (.rd .dst) running = .next t) ∧
    (∃ t, exec (.illegal 0) running = .next t) :=
  ⟨runs (by decide), runs (by decide), runs (by decide), runs (by decide), runs (by decide),
    runs (by decide), runs (by decide)⟩

/-! ### Witnesses: the encode commands and the tables -/

/-- A legal state for each of the five counts, with every valid bit set. -/
theorem witness_EncPushResult_EncEndResult :
    ((encAt 0 0).Legal ∧ (encAt 0 0).ecnt = 0) ∧ ((encAt 0x3 2).Legal ∧ (encAt 0x3 2).ecnt = 2) ∧
    ((encAt 0xF 4).Legal ∧ (encAt 0xF 4).ecnt = 4) ∧ ((encAt 0x3F 6).Legal ∧ (encAt 0x3F 6).ecnt = 6) ∧
    ((encAt 0xFF 8).Legal ∧ (encAt 0xFF 8).ecnt = 8) := by
  refine ⟨?_, ?_, ?_, ?_, ?_⟩ <;> decide

theorem witness_FivePushesEmitFourGroups : running.Legal ∧ running.ecnt = 0 := by decide

theorem witness_EncoderNeverFails : failed.Legal ∧ (encAt 0xFF 8).Legal := by decide

/-- Each of the five residues. -/
theorem witness_TailClassIsFixedByTheLength :
    failed.Legal ∧ failed.EncIdle ∧ ([] : List Byte).length % 5 = 0 ∧ [(1 : Byte)].length % 5 = 1 ∧
    [(1 : Byte), 2].length % 5 = 2 ∧ [(1 : Byte), 2, 3].length % 5 = 3 ∧
    [(1 : Byte), 2, 3, 4].length % 5 = 4 := by decide

/-- A hit at the last code of an alphabet, and a miss one past it. -/
theorem witness_LookupResult :
    running.Legal ∧ fwd running.table (.pad1 3) = 0xE0403 ∧ (∀ c, fwd running.table c ≠ 0xE0404) :=
  ⟨by decide, by decide +kernel, miss_of_not_mem (by decide +kernel)⟩

theorem witness_AlphabetsAreDisjointAndEmptyIsEmpty :
    fwd tt0 (.pad4 255) = fwd tt0 (.pad4 255) ∧ fwd tt0 (.pad4 255) ≠ fwd tt0 (.regular 255) :=
  ⟨rfl, by decide +kernel⟩

/-! ### Witnesses: the decode commands -/

/-- `RUN` with each of the four counts, every valid bit set, and a token of `Regular`. -/
theorem witness_DecPushRegularResult :
    fwd tt0 (.regular 1023) = 0xE03FF ∧
    ((decAt 0 0 0 0 0).Legal ∧ (decAt 0 0 0 0 0).phase = phaseRun ∧ (decAt 0 0 0 0 0).dcnt = 0) ∧
    ((decAt 3 2 1 0 0).Legal ∧ (decAt 3 2 1 0 0).phase = phaseRun ∧ (decAt 3 2 1 0 0).dcnt = 2) ∧
    ((decAt 15 4 2 0 0).Legal ∧ (decAt 15 4 2 0 0).phase = phaseRun ∧ (decAt 15 4 2 0 0).dcnt = 4) ∧
    ((decAt 63 6 3 0 0).Legal ∧ (decAt 63 6 3 0 0).phase = phaseRun ∧ (decAt 63 6 3 0 0).dcnt = 6) :=
  ⟨by decide +kernel, by decide, by decide, by decide, by decide⟩

/-- The three clauses, each at the counts nearest the others: leftover bits 2 on `P1[1]` after no bits;
8 bits on `P1[3]` after 6 and 14 on `P4[0]` after 6; 2 bits on `P1[0]` and 6 on `P3[0]`. -/
theorem witness_DecPushPaddingResult :
    fwd tt0 (.pad1 1) = 0xE0401 ∧ fwd tt0 (.pad1 3) = 0xE0403 ∧ fwd tt0 (.pad4 0) = 0xE1000 ∧
    fwd tt0 (.pad1 0) = 0xE0400 ∧ fwd tt0 (.pad3 0) = 0xE0C00 ∧ isPad (.pad1 1) = true ∧
    (start.Legal ∧ start.phase = phaseRun) ∧ (running.Legal ∧ running.phase = phaseRun) ∧
    (start.dacc.toNat * 2 ^ 2 + 1) % 2 ^ ((start.dcnt.toNat + 2) % 8) ≠ 0 ∧
    ((running.dacc.toNat * 2 ^ 2 + 3) % 2 ^ ((running.dcnt.toNat + 2) % 8) = 0 ∧
      running.dcnt.toNat + 2 = 8) ∧
    (((decAt 63 6 3 0 0).dacc.toNat * 2 ^ 8 + 0) % 2 ^ (((decAt 63 6 3 0 0).dcnt.toNat + 8) % 8) = 0 ∧
      (decAt 63 6 3 0 0).dcnt.toNat + 8 = 14) ∧
    ((start.dacc.toNat * 2 ^ 2 + 0) % 2 ^ ((start.dcnt.toNat + 2) % 8) = 0 ∧
      start.dcnt.toNat + 2 < 8) ∧
    ((start.dacc.toNat * 2 ^ 6 + 0) % 2 ^ ((start.dcnt.toNat + 6) % 8) = 0 ∧
      start.dcnt.toNat + 6 < 8) := by
  refine ⟨?_, ?_, ?_, ?_, ?_, ?_, ?_, ?_, ?_, ?_, ?_, ?_, ?_⟩ <;> decide +kernel

theorem witness_DecPushUnknownResult :
    running.Legal ∧ running.phase = phaseRun ∧ ∀ c, fwd running.table c ≠ 0x41 :=
  ⟨by decide, by decide, unknown_0x41⟩

theorem witness_DecPushAfterPaddingResult : padded.Legal ∧ padded.phase = phasePadded := by decide

theorem witness_DecPushAfterFailureResult : failed.Legal ∧ failed.phase = phaseFailed := by decide

theorem witness_DecEndResult :
    (failed.Legal ∧ failed.phase = phaseFailed) ∧ (padded.Legal ∧ padded.phase = phasePadded) ∧
    (running.Legal ∧ running.phase = phaseRun ∧ running.dcnt ≠ 0) ∧
    (start.Legal ∧ start.phase = phaseRun ∧ start.dcnt = 0) := by
  refine ⟨?_, ?_, ?_, ?_⟩ <;> decide

/-- Every row of the table of R87 that has a condition. -/
theorem witness_PhaseTransitions :
    (∃ t, exec (.decPush 0x41) running = .next t) ∧ running.phase = phaseRun ∧
    (∀ c, fwd running.table c ≠ 0x41) ∧ fwd running.table (.regular 72) = 0xE0048 ∧
    fwd running.table (.pad1 3) = 0xE0403 ∧ isPad (.pad1 3) = true ∧
    (running.dacc.toNat * 2 ^ 2 + 3) % 2 ^ ((running.dcnt.toNat + 2) % 8) = 0 ∧
    fwd running.table (.pad2 1) = 0xE0801 ∧ isPad (.pad2 1) = true ∧
    (running.dacc.toNat * 2 ^ 4 + 1) % 2 ^ ((running.dcnt.toNat + 4) % 8) ≠ 0 ∧
    (∃ t, exec (.decPush 0xE0000) padded = .next t) ∧ padded.phase = phasePadded ∧
    (∃ t, exec .decEnd failed = .next t) ∧ failed.phase = phaseFailed ∧
    (start.phase = phaseRun ∧ start.dcnt = 0) ∧ running.dcnt ≠ 0 ∧
    (∃ t, step { failed with inputs := [.reset] } = .next t) :=
  ⟨runs (by decide), by decide, unknown_0x41, by decide +kernel, by decide +kernel, rfl, by decide,
    by decide +kernel, rfl, by decide, runs (by decide), by decide, runs (by decide), by decide, by decide,
    by decide, _, rfl⟩

theorem witness_RaisingAnErrorDoesExactlyThis :
    running.phase ≠ phaseFailed ∧ ∃ t, exec (.decPush 0x41) running = .next t ∧ t.phase = phaseFailed := by
  refine ⟨by decide, ?_⟩
  obtain ⟨t, e⟩ := runs (i := .decPush 0x41) (s := running) (by decide)
  have h : seen State.phase (exec (.decPush 0x41) running) = some phaseFailed := by decide +kernel
  rw [e] at h
  exact ⟨t, e, Option.some.inj h⟩

theorem witness_OnlyDecEndOrResetLeavesFailed :
    failed.phase = phaseFailed ∧
    (∃ t, step (failed.present 0x04) = .next t ∧ t.phase ≠ phaseFailed) ∧
    (∃ t, step { failed with inputs := [.reset] } = .next t ∧ t.phase ≠ phaseFailed) :=
  ⟨by decide, ⟨_, rfl, by decide +kernel⟩, ⟨_, rfl, by decide +kernel⟩⟩

theorem witness_ErrorsDoNotNest :
    failed.Legal ∧ failed.phase = phaseFailed ∧ Instr.decPush 0xE0000 ≠ .decEnd ∧
    Instr.illegal 0 ≠ .decEnd ∧ isEncCmd (.encPush 0x48) = true := by decide

/-- A push that is accepted, one that is not, and an end. -/
theorem witness_DecodePositionCountsAcceptedSymbols :
    (∃ t, exec (.decPush 0xE0403) running = .next t ∧ t.rsps = running.rsps ++ [0xEF10] ∧
      rspStatus 0xEF10 = 0) ∧
    (∃ t, exec (.decPush 0x41) running = .next t ∧ t.rsps = running.rsps ++ [0x301] ∧
      rspStatus 0x301 ≠ 0) ∧
    (∃ t, exec .decEnd running = .next t) := by
  refine ⟨?_, ?_, runs (by decide)⟩
  · obtain ⟨t, e⟩ := runs (i := .decPush 0xE0403) (s := running) (by decide)
    have h : seen State.rsps (exec (.decPush 0xE0403) running) = some [0xEF10] := by decide +kernel
    rw [e] at h
    exact ⟨t, e, Option.some.inj h, by decide⟩
  · obtain ⟨t, e⟩ := runs (i := .decPush 0x41) (s := running) (by decide)
    have h : seen State.rsps (exec (.decPush 0x41) running) = some [0x301] := by decide +kernel
    rw [e] at h
    exact ⟨t, e, Option.some.inj h, by decide⟩

/-! ### Witnesses: system, independence, streams -/

theorem witness_RdResult : failed.Legal ∧ (encAt 0xFF 8).Legal := by decide

/-- One word for each ground of R59. -/
theorem witness_IllegalWordsAreAnsweredAndIgnored :
    running.Legal ∧ illegalWord 0x00 = true ∧ illegalWord 0x07 = true ∧ illegalWord 0xFF = true ∧
    illegalWord 0x010001 = true ∧ illegalWord 0x0102 = true ∧ illegalWord 0x0104 = true ∧
    illegalWord 0x0706 = true ∧ illegalWord 0x1006 = true := by decide

theorem witness_ContextsAreIndependent :
    failed.Legal ∧ failed.inputs = [] ∧
    ∀ i ∈ [Instr.encPush 0x48, .decPush 0xE0000, .rd .dst, .decEnd, .illegal 0, .encEnd],
      i.wellFormed = true := by decide

/-- A stream with full groups and a tail. -/
theorem witness_GroupsAreCutFromTheBitStreamInOrder :
    0 < 8 * [0x12, 0x34].length / 10 ∧ 8 * [0x12, 0x34].length % 10 ≠ 0 := by decide

theorem witness_EncodeStreamRealisesEncode :
    failed.Legal ∧ failed.EncIdle ∧ 0 < 8 * [0x12, 0x34].length / 10 ∧
    8 * [0x12, 0x34].length % 10 ≠ 0 := by decide

/-- An accepted stream, and one of each error. -/
theorem witness_DecodeStreamRealisesDecode :
    (encAt 0xFF 8).Legal ∧ (encAt 0xFF 8).DecIdle ∧ decodeFn tt0 [0xE10FF] = .ok [0xFF] ∧
    decodeFn tt0 [0xE0048] = .fail 3 1 ∧ decodeFn tt0 [0xE0048, 0x41] = .fail 1 1 ∧
    decodeFn tt0 [0xE10FF, 0xE0000] = .fail 2 1 := by
  refine ⟨?_, ?_, ?_, ?_, ?_, ?_⟩ <;> decide +kernel

theorem witness_BlockRoundTrip : start.Legal ∧ start.EncIdle ∧ start.DecIdle := by decide

/-- `R[72] P3[52]` (V-E3) and four `Regular` symbols (V-E6). -/
theorem witness_LengthLaws :
    isPad (.pad3 52) = true ∧
    decodeFn tt0 (([72].map SymCode.regular ++ [SymCode.pad3 52]).map (fwd tt0)) = .ok [0x12, 0x34] ∧
    decodeFn tt0 (([72, 837, 414, 154].map SymCode.regular).map (fwd tt0)) =
      .ok [0x12, 0x34, 0x56, 0x78, 0x9A] := by
  refine ⟨?_, ?_, ?_⟩ <;> decide +kernel

/-- The padding symbol's own leftover bits zero, and not zero with an unknown symbol after it; and a
second padding symbol that is not the first. -/
theorem witness_PaddingPositionLaw :
    (rev tt0 0xE0400 = some (.pad1 0) ∧ firstPad tt0 [0xE0400, 0xE0000] = some 0) ∧
    (rev tt0 0xE0401 = some (.pad1 1) ∧ firstPad tt0 [0xE0401, 0x41] = some 0) ∧
    firstPad tt0 [0xE0400, 0xE0401, 0x41] ≠ some 1 ∧ isPad (.pad1 1) = true ∧
    [(0xE0400 : Token), 0xE0401, 0x41][1]? = some 0xE0401 := by
  refine ⟨⟨?_, ?_⟩, ⟨?_, ?_⟩, ?_, ?_, ?_⟩ <;> decide +kernel

/-- Unknown at the first place, and after a `Regular` symbol. -/
theorem witness_UnknownSymbolLaw :
    rev tt0 0x41 = none ∧ rev tt0 0xE0048 = some (.regular 72) ∧
    [(0x41 : Token)][0]? = some 0x41 ∧ [(0xE0048 : Token), 0x41][1]? = some 0x41 := by
  refine ⟨?_, ?_, ?_, ?_⟩ <;> decide +kernel

/-- The five residues, the shortest of each that has two symbols. -/
theorem witness_TruncationLaw :
    2 ≤ (encodeFn [0, 0, 0, 0, 0]).length ∧ (2 ≤ (encodeFn [0, 0, 0, 0, 0, 1]).length ∧ 6 % 5 = 1) ∧
    2 ≤ (encodeFn [0, 0]).length ∧ 2 ≤ (encodeFn [0, 0, 0]).length ∧
    2 ≤ (encodeFn [0, 0, 0, 0]).length := by decide +kernel

end Sys2Proof.Tests
end

/-! ### Every step keeps the legal register states (R20, R23, R27), and the block never stops -/

namespace Sys2Proof.Machine

/-- The encode invariant from the list of counts that R20 writes out. -/
theorem State.EncInv.of_cases {s : State}
    (hc : s.ecnt = 0 ∨ s.ecnt = 2 ∨ s.ecnt = 4 ∨ s.ecnt = 6 ∨ s.ecnt = 8)
    (ha : s.eacc.toNat < 2 ^ s.ecnt.toNat) : s.EncInv := by
  refine ⟨?_, ?_, ha⟩ <;> rcases hc with e | e | e | e | e <;> rw [e] <;> decide

/-- The decode invariant from the list of counts that R23 writes out. -/
theorem State.DecInv.of_cases {s : State}
    (hc : s.dcnt = 0 ∨ s.dcnt = 2 ∨ s.dcnt = 4 ∨ s.dcnt = 6)
    (ha : s.dacc.toNat < 2 ^ s.dcnt.toNat)
    (hp : s.phase = phasePadded → s.dcnt = 0 ∧ s.dacc = 0) : s.DecInv := by
  refine ⟨?_, ?_, ha, hp⟩ <;> rcases hc with e | e | e | e <;> rw [e] <;> decide

/-- The decode invariant with nothing held, in any phase. -/
theorem State.DecInv.of_empty {s : State} (hc : s.dcnt = 0) (ha : s.dacc = 0) : s.DecInv :=
  .of_cases (.inl hc) (by rw [hc, ha]; decide) fun _ => ⟨hc, ha⟩

/-- The status invariant in `RUN` and in `PADDED`: no error and no position recorded. -/
theorem State.StatusInv.of_no_error {s : State} {p : BitVec 2} (hd : s.dst = dstOf 0 p)
    (hp : p = phaseRun ∨ p = phasePadded) (h0 : s.depos = 0) : s.StatusInv := by
  have hph := phase_of_dst s hd
  have her := err_of_dst s hd
  unfold State.StatusInv
  rw [hph, her]
  rcases hp with rfl | rfl <;> exact ⟨by decide, by decide, by decide, fun _ => h0⟩

/-- The status invariant in `FAILED`: any recorded error, at any position. -/
theorem State.StatusInv.of_failed {s : State} {e : DecError}
    (hd : s.dst = dstOf (errCode e) phaseFailed) : s.StatusInv := by
  have hph := phase_of_dst s hd
  have her := err_of_dst s hd
  unfold State.StatusInv
  rw [hph, her]
  cases e <;> exact ⟨by decide, by decide, by decide, fun h => absurd rfl h⟩

/-- Taking an error keeps a state legal (R112): the bits held stay, and the phase is `FAILED`. -/
theorem legal_raise {s : State} (h : s.Legal) (e : DecError) : (s.raise e).Legal := by
  obtain ⟨henc, ⟨heven, hle, hlt, -⟩, -⟩ := h
  have hph : (s.raise e).phase = phaseFailed := phase_of_dst _ (raise_dst e s)
  refine ⟨henc, ⟨heven, hle, hlt, ?_⟩, .of_failed (raise_dst e s)⟩
  rw [hph]
  exact fun hc => absurd hc (by decide)

/-- Clearing the encode context keeps a state legal (R69). -/
theorem legal_clearEnc {s : State} (h : s.Legal) : s.clearEnc.Legal :=
  ⟨.of_cases (.inl rfl) (by decide : 0 < 2 ^ 0), h.2⟩

/-- Clearing the decode context leaves a legal state wherever the encode context is in one (R84). -/
theorem legal_clearDec {s : State} (h : s.EncInv) : s.clearDec.Legal :=
  ⟨h, .of_empty rfl rfl, .of_no_error (p := phaseRun) rfl (.inl rfl) rfl⟩

/-- The reset input leaves a legal state, from any state (R121). -/
theorem legal_resetRegs (s : State) : s.resetRegs.Legal :=
  legal_clearDec (.of_cases (.inl rfl) (by decide : 0 < 2 ^ 0))

/-- `DEC.PUSH` leaves a legal state in each of its arms (R79 to R83). -/
theorem decPush_keeps_legal {tok : Token} {s t : State} (h : exec (.decPush tok) s = .next t) :
    t.Legal := by
  obtain ⟨hl, ⟨-, rfl⟩ | ⟨-, rfl⟩ | ⟨-, -, rfl⟩ | ⟨-, -, rfl⟩ | ⟨hp, -, n, d, rfl, -⟩ |
    ⟨hp, -, acc, cnt, n, d, rfl, hcnt, -, hacc, -⟩⟩ := decPush_next h
  · exact (legal_respond _ _ _).2 hl
  · exact legal_raise hl _
  · exact legal_raise hl _
  · exact legal_raise hl _
  · have hdepos : s.depos = 0 := hl.2.2.2.2.2 (by rw [hp]; decide)
    exact ⟨hl.1, .of_empty rfl rfl, .of_no_error (p := phasePadded) rfl (.inr rfl) hdepos⟩
  · have hrun : s.phase ≠ phasePadded := by rw [hp]; decide
    exact ⟨hl.1, .of_cases hcnt hacc fun hc => absurd hc hrun, hl.2.2⟩

/-- Every command that is answered leaves a legal state (R20, R23, R27). -/
theorem exec_keeps_legal {i : Instr} {s t : State} (h : exec i s = .next t) : t.Legal := by
  cases i with
  | encPush b =>
    obtain ⟨hl, acc, cnt, r, rfl, hcnt, hacc, -⟩ := encPush_next h
    exact ⟨.of_cases hcnt hacc, hl.2⟩
  | encEnd =>
    obtain ⟨hl, r, rfl, -⟩ := encEnd_next h
    exact legal_clearEnc hl
  | decPush tok => exact decPush_keeps_legal h
  | decEnd =>
    obtain ⟨hl, rfl⟩ := decEnd_next h
    exact legal_clearDec hl.1
  | ridxLookup tok =>
    obtain ⟨hl, st, n, d, rfl, -⟩ := quiet_next rfl rfl h
    exact (legal_respond st n d).2 hl
  | rd r =>
    obtain ⟨hl, st, n, d, rfl, -⟩ := quiet_next rfl rfl h
    exact (legal_respond st n d).2 hl
  | illegal w =>
    obtain ⟨hl, st, n, d, rfl, -⟩ := quiet_next rfl rfl h
    exact (legal_respond st n d).2 hl

/-- Every step from a legal state leaves one. -/
theorem step_keeps_legal {s t : State} (hl : s.Legal) (h : step s = .next t) : t.Legal := by
  rcases step_cases h with ⟨-, rfl⟩ | ⟨rest, -, rfl⟩ | ⟨w, rest, -, -, he⟩
  · exact hl
  · exact legal_resetRegs _
  · exact exec_keeps_legal he

/-! What a step is, by the event at the head of the ports (R14, R45, R121). -/

theorem step_of_nil {s : State} (h : s.inputs = []) : step s = .next s := by
  simp only [step, accept_nil h]

theorem step_of_reset {s : State} {rest : List HostInput} (h : s.inputs = .reset :: rest) :
    step s = .next ({ s with inputs := rest } : State).resetRegs := by
  simp only [step, accept_cons h]

theorem step_of_command {s : State} {w : CmdWord} {rest : List HostInput}
    (h : s.inputs = .command w :: rest) : step s = exec (decode w) { s with inputs := rest } := by
  simp only [step, accept_cons h]

/-- A legal state has a next state, whatever stands at the ports. -/
theorem step_answers_of_legal {s : State} (hl : s.Legal) : ∃ t, step s = .next t := by
  rcases hi : s.inputs with _ | ⟨w | _, rest⟩
  · exact ⟨_, step_of_nil hi⟩
  · rw [step_of_command hi]
    rcases exec_outcome (decode w) { s with inputs := rest } with ⟨hn, -⟩ | ⟨-, ht⟩
    · exact absurd ((legal_with_inputs rest).2 hl) hn
    · exact ht
  · exact ⟨_, step_of_reset hi⟩

/-- From a legal state, or from any state at the reset input, a step ends in a legal state. -/
theorem step_to_legal {s : State} (h : s.Legal ∨ ∃ rest, s.inputs = .reset :: rest) :
    ∃ t, step s = .next t ∧ t.Legal := by
  rcases h with hl | ⟨rest, hr⟩
  · obtain ⟨t, ht⟩ := step_answers_of_legal hl
    exact ⟨t, ht, step_keeps_legal hl ht⟩
  · exact ⟨_, step_of_reset hr, legal_resetRegs _⟩

/-- Settles O14, by induction on the number of steps: after the first one the state is legal, and every
step from a legal state ends in a legal state. -/
theorem theBlockNeverStops : Obligations.TheBlockNeverStops := by
  intro s h k
  induction k generalizing s with
  | zero => exact ⟨s, rfl⟩
  | succ k ih =>
    obtain ⟨t, hstep, hl⟩ := step_to_legal h
    rw [run_succ hstep]
    exact ih t (.inl hl)

end Sys2Proof.Machine

/-! ### Decoding the word of a command, and the step on it -/

namespace Sys2Proof

theorem argOf_cmdWord (arg : BitVec 64) (opc : BitVec 8) : argOf (cmdWord arg opc) = arg :=
  BitVec.extractLsb'_append_eq_left

/-- The must-be-zero bits of `ARG` (R60) as arithmetic: bits 63:`k` are zero when the number is below
`2^k`. -/
theorem extractLsb'_high_eq_zero_iff (arg : BitVec 64) {k len : Nat} (hk : k + len = 64) :
    arg.extractLsb' k len = 0#len ↔ arg.toNat < 2 ^ k := by
  have hlt : arg.toNat / 2 ^ k < 2 ^ len := by
    rw [Nat.div_lt_iff_lt_mul (Nat.two_pow_pos k), ← Nat.pow_add, Nat.add_comm, hk]
    exact arg.isLt
  rw [← BitVec.toNat_inj, BitVec.extractLsb'_toNat, Nat.shiftRight_eq_div_pow, Nat.mod_eq_of_lt hlt,
    BitVec.toNat_ofNat, Nat.zero_mod, Nat.div_eq_zero_iff_lt (Nat.two_pow_pos k)]

/-- The numbers 7 to 15 name no register (R90). -/
theorem Reg.ofNumber_eq_none {n : BitVec 4} (h : 6 < n.toNat) : Reg.ofNumber n = none := by
  revert n
  decide

/-- Every word on R59's list falls through all the clauses of R62. -/
theorem decode_of_illegalWord {w : CmdWord} (h : illegalWord w = true) : decode w = .illegal w := by
  have hmbz8 := extractLsb'_high_eq_zero_iff (argOf w) (show 8 + 56 = 64 from rfl)
  have hmbz4 := extractLsb'_high_eq_zero_iff (argOf w) (show 4 + 60 = 64 from rfl)
  have hreg : ((argOf w).extractLsb' 0 4).toNat = (argOf w).toNat % 16 := by simp
  simp only [illegalWord, show w.extractLsb' 0 8 = opcOf w from rfl,
    show w.extractLsb' 8 64 = argOf w from rfl, Bool.or_eq_true, Bool.and_eq_true, beq_iff_eq,
    bne_iff_ne, decide_eq_true_eq] at h
  simp only [decode, hmbz8, hmbz4]
  simp only [← BitVec.toNat_inj, BitVec.toNat_ofNat, Nat.reducePow, Nat.reduceMod]
  rw [if_neg (by omega), if_neg (by omega), if_neg (by omega), if_neg (by omega),
    if_neg (by omega)]
  split_ifs with hrd
  · rw [Reg.ofNumber_eq_none (by omega)]
  · rfl

/-- Decoding the word of a well-formed command gives the command (R62). -/
theorem decode_encode {i : Instr} (h : i.wellFormed = true) : decode (encode i) = i := by
  have hopc := Laws.OpcField.opcOf_cmdWord
  cases i with
  | encPush b =>
    have hhigh : (b.setWidth 64).extractLsb' 8 56 = 0#56 :=
      (extractLsb'_high_eq_zero_iff _ rfl).2 (by have := b.isLt; rw [BitVec.toNat_setWidth]; omega)
    have hlow : (b.setWidth 64).extractLsb' 0 8 = b := by
      rw [← BitVec.setWidth_eq_extractLsb' (by decide),
        BitVec.setWidth_setWidth_of_le _ (by decide), BitVec.setWidth_eq]
    simp [decode, encode, hopc, argOf_cmdWord, hhigh, hlow]
  | encEnd | decPush _ | decEnd | ridxLookup _ => simp [decode, encode, hopc, argOf_cmdWord]
  | rd r => cases r <;> decide
  | illegal w => exact decode_of_illegalWord h

end Sys2Proof

namespace Sys2Proof.Machine

/-- A step with a command word just presented executes it, on the state before it was presented. -/
theorem step_present (s : State) (w : CmdWord) : step (s.present w) = exec (decode w) s :=
  step_of_command (present_inputs w s)

/-- Settles O5: the first clause is the step on a command word, the second its use on the word of a
command, which decodes to that command. -/
theorem stepRunsTheDecodedCommand : Obligations.StepRunsTheDecodedCommand := by
  refine ⟨fun s w rest h => step_of_command h, fun s i hi => ?_⟩
  rw [step_present, decode_encode hi]

end Sys2Proof.Machine

/-! ### The invariants of the registers (R20, R23, R27), their writers (R34) and the position (R24) -/

namespace Sys2Proof.Machine

/-- A step that does not wait leaves a legal state, whatever the state before it: a command is answered
in legal states only, and the reset input makes one from any state. -/
theorem step_waits_or_legal {s t : State} (h : step s = .next t) : t = s ∨ t.Legal := by
  rcases step_cases h with ⟨-, rfl⟩ | ⟨rest, -, rfl⟩ | ⟨w, rest, -, -, he⟩
  · exact .inl rfl
  · exact .inr (legal_resetRegs _)
  · exact .inr (exec_keeps_legal he)

/-- Every step keeps a property of the state that all legal states have. -/
theorem step_keeps_of_legal {P : State → Prop} (hP : ∀ u : State, u.Legal → P u) {s t : State}
    (hs : P s) (h : step s = .next t) : P t := by
  rcases step_waits_or_legal h with rfl | hl
  · exact hs
  · exact hP t hl

theorem legal_reset : State.reset.Legal :=
  ⟨.of_cases (.inl rfl) (by decide : 0 < 2 ^ 0), .of_empty rfl rfl,
    .of_no_error (p := phaseRun) rfl (.inl rfl) rfl⟩

/-- Settles O9: the reset state is legal, a legal state has R20's counts, and every step keeps what
all legal states have. -/
theorem encodeInvariantHoldsAndIsKept : Obligations.EncodeInvariantHoldsAndIsKept := by
  unfold Obligations.EncodeInvariantHoldsAndIsKept
  intro inv
  have hinv : ∀ u : State, u.Legal → inv u := fun u ⟨henc, _⟩ =>
    ⟨henc.ecnt_cases, henc.2.2⟩
  exact ⟨hinv _ legal_reset, fun s t => step_keeps_of_legal hinv⟩

/-- Settles O10: as O9, with R23's counts and its clause on `PADDED`. -/
theorem decodeInvariantHoldsAndIsKept : Obligations.DecodeInvariantHoldsAndIsKept := by
  unfold Obligations.DecodeInvariantHoldsAndIsKept
  intro inv
  have hinv : ∀ u : State, u.Legal → inv u := fun u ⟨_, hdec, _⟩ => ⟨hdec.dcnt_cases, hdec.2.2⟩
  exact ⟨hinv _ legal_reset, fun s t => step_keeps_of_legal hinv⟩

/-- The values of `ERR` in a legal state (R27). -/
theorem State.StatusInv.err_cases {s : State} (h : s.StatusInv) :
    s.err = 0 ∨ s.err = 1 ∨ s.err = 2 := by
  rcases h.dst_cases with e | e | e | e
  · exact .inl (err_of_dst s e)
  · exact .inl (err_of_dst s e)
  · exact .inr (.inl (err_of_dst s e))
  · exact .inr (.inr (err_of_dst s e))

/-- In `FAILED` the recorded error is one of the two that `DEC.PUSH` raises (R27, R105). -/
theorem failed_err {s : State} (h : s.StatusInv) (hp : s.phase = phaseFailed) :
    s.err = 1 ∨ s.err = 2 := by
  have hcases := h.err_cases
  obtain ⟨-, -, hfailed, -⟩ := h
  exact hcases.resolve_left (hfailed.1 hp)

theorem phase_ne_three {s : State} (h : s.Legal) : s.phase ≠ 3 := by
  rcases phase_cases h with e | e | e <;> rw [e] <;> decide

/-! The status of each command's response (R55). -/

/-- `DEC.PUSH` answers `OK` and counts the symbol, or answers an error and leaves `DPOS` (R24, R79 to
R83). -/
theorem decPush_answer {tok : Token} {s t : State} (h : exec (.decPush tok) s = .next t) :
    ∃ r, t.rsps = s.rsps ++ [r] ∧
      ((rspStatus r = 0 ∧ t.dpos = s.dpos + 1) ∨
       ((rspStatus r = 1 ∨ rspStatus r = 2) ∧ t.dpos = s.dpos)) := by
  obtain ⟨hl, ⟨hp, rfl⟩ | ⟨-, rfl⟩ | ⟨-, -, rfl⟩ | ⟨-, -, rfl⟩ | ⟨-, -, n, d, rfl, -⟩ |
    ⟨-, -, acc, cnt, n, d, rfl, -⟩⟩ := decPush_next h
  · refine ⟨_, rfl, .inr ⟨?_, rfl⟩⟩
    rw [rspStatus_rspWord]
    rcases failed_err hl.2.2 hp with e | e <;> rw [e] <;> decide
  · exact ⟨_, rfl, .inr ⟨.inr (rspStatus_rspWord _ _ _), rfl⟩⟩
  · exact ⟨_, rfl, .inr ⟨.inl (rspStatus_rspWord _ _ _), rfl⟩⟩
  · exact ⟨_, rfl, .inr ⟨.inr (rspStatus_rspWord _ _ _), rfl⟩⟩
  · exact ⟨_, rfl, .inl ⟨rspStatus_rspWord _ _ _, rfl⟩⟩
  · exact ⟨_, rfl, .inl ⟨rspStatus_rspWord _ _ _, rfl⟩⟩

/-- The encode commands answer `OK` (R71). -/
theorem encCmd_answers_ok {i : Instr} (hi : isEncCmd i = true) {s t : State}
    (h : exec i s = .next t) : ∃ r, t.rsps = s.rsps ++ [r] ∧ rspStatus r = 0 := by
  cases i with
  | encPush b =>
    obtain ⟨-, acc, cnt, r, rfl, -, -, rfl | ⟨g, rfl⟩⟩ := encPush_next h
    · exact ⟨_, rfl, rspStatus_rspWord _ _ _⟩
    · exact ⟨_, rfl, rspStatus_rspWord _ _ _⟩
  | encEnd =>
    obtain ⟨-, r, rfl, rfl | ⟨c, -, rfl⟩⟩ := encEnd_next h
    · exact ⟨_, rfl, rspStatus_rspWord _ _ _⟩
    · exact ⟨_, rfl, rspStatus_rspWord _ _ _⟩
  | decPush _ | decEnd | ridxLookup _ | rd _ | illegal _ => cases hi

/-- The commands that write no register answer `OK`, `UnknownSymbol` or `IllegalCommand` (R74, R89,
R91). -/
theorem quiet_status {i : Instr} (hi : isEncCmd i = false) (hd : isDecCmd i = false) {s t : State}
    (h : exec i s = .next t) :
    ∃ r, t.rsps = s.rsps ++ [r] ∧ (rspStatus r = 0 ∨ rspStatus r = 1 ∨ rspStatus r = 4) := by
  obtain ⟨-, st, n, d, rfl, -, hst⟩ := quiet_next hi hd h
  refine ⟨_, rfl, ?_⟩
  rw [rspStatus_rspWord]
  cases i with
  | ridxLookup _ => exact hst.imp_right .inl
  | rd _ => exact .inl hst
  | illegal _ => exact .inr (.inr hst.1)
  | encPush _ | encEnd => cases hi
  | decPush _ | decEnd => cases hd

/-- No command but `DEC.END` answers `TruncatedStream` (R27). -/
theorem status_ne_truncated {i : Instr} (hi : i ≠ .decEnd) {s t : State} (h : exec i s = .next t) :
    ∃ r, t.rsps = s.rsps ++ [r] ∧ rspStatus r ≠ 3 := by
  cases i with
  | encPush _ | encEnd =>
    obtain ⟨r, hr, hst⟩ := encCmd_answers_ok rfl h
    exact ⟨r, hr, by rw [hst]; decide⟩
  | decPush tok =>
    obtain ⟨r, hr, ⟨hst, -⟩ | ⟨hst | hst, -⟩⟩ := decPush_answer h <;>
      exact ⟨r, hr, by rw [hst]; decide⟩
  | decEnd => exact absurd rfl hi
  | ridxLookup _ | rd _ | illegal _ =>
    obtain ⟨r, hr, hst | hst | hst⟩ := quiet_status rfl rfl h <;>
      exact ⟨r, hr, by rw [hst]; decide⟩

/-- The response that a command appends is fixed by the lists before and after it. -/
theorem response_unique {l m : List RspWord} {r r' : RspWord} (h : m = l ++ [r])
    (h' : m = l ++ [r']) : r = r' := by
  rw [h] at h'
  exact List.singleton_inj.1 (List.append_cancel_left h')

theorem decEnd_leaves_idle {s t : State} (h : exec .decEnd s = .next t) : t.DecIdle := by
  obtain ⟨-, rfl⟩ := decEnd_next h
  exact ⟨rfl, rfl, rfl, rfl, rfl⟩

theorem encEnd_leaves_idle {s t : State} (h : exec .encEnd s = .next t) : t.EncIdle := by
  obtain ⟨-, r, rfl, -⟩ := encEnd_next h
  exact ⟨rfl, rfl⟩

/-- Settles O11: as O9, with the values of `DST` in a legal state; and by its status lemma no other
command than `DEC.END` answers `TruncatedStream`. -/
theorem statusInvariantHoldsAndIsKept : Obligations.StatusInvariantHoldsAndIsKept := by
  unfold Obligations.StatusInvariantHoldsAndIsKept
  intro inv
  have hinv : ∀ u : State, u.Legal → inv u := fun u hu => by
    obtain ⟨-, -, hfailed, hdepos⟩ := hu.2.2
    exact ⟨hfailed, hu.2.2.err_cases, phase_ne_three hu, hdepos⟩
  refine ⟨⟨hinv _ legal_reset, fun s t => step_keeps_of_legal hinv⟩, ?_⟩
  intro i s t r h hr h3
  obtain rfl : i = .decEnd := by
    by_contra hi
    obtain ⟨r', hr', hne⟩ := status_ne_truncated hi h
    exact hne (response_unique hr hr' ▸ h3)
  exact ⟨rfl, decEnd_leaves_idle h⟩

/-! What each command leaves unchanged (R34, R46). -/

/-- The encode context is written by the encode commands only. -/
theorem exec_keeps_enc {i : Instr} (hi : isEncCmd i = false) {s t : State} (h : exec i s = .next t) :
    t.eacc = s.eacc ∧ t.ecnt = s.ecnt := by
  cases i with
  | encPush _ | encEnd => cases hi
  | decPush tok =>
    obtain ⟨-, ⟨-, rfl⟩ | ⟨-, rfl⟩ | ⟨-, -, rfl⟩ | ⟨-, -, rfl⟩ | ⟨-, -, n, d, rfl, -⟩ |
      ⟨-, -, acc, cnt, n, d, rfl, -⟩⟩ := decPush_next h <;> exact ⟨rfl, rfl⟩
  | decEnd =>
    obtain ⟨-, rfl⟩ := decEnd_next h
    exact ⟨rfl, rfl⟩
  | ridxLookup _ | rd _ | illegal _ =>
    obtain ⟨-, st, n, d, rfl, -⟩ := quiet_next rfl rfl h
    exact ⟨rfl, rfl⟩

/-- The decode context is written by the decode commands only. -/
theorem exec_keeps_dec {i : Instr} (hi : isDecCmd i = false) {s t : State} (h : exec i s = .next t) :
    t.dacc = s.dacc ∧ t.dcnt = s.dcnt ∧ t.dpos = s.dpos ∧ t.dst = s.dst ∧ t.depos = s.depos := by
  cases i with
  | encPush b =>
    obtain ⟨-, acc, cnt, r, rfl, -⟩ := encPush_next h
    exact ⟨rfl, rfl, rfl, rfl, rfl⟩
  | encEnd =>
    obtain ⟨-, r, rfl, -⟩ := encEnd_next h
    exact ⟨rfl, rfl, rfl, rfl, rfl⟩
  | decPush _ | decEnd => cases hi
  | ridxLookup _ | rd _ | illegal _ =>
    obtain ⟨-, st, n, d, rfl, -⟩ := quiet_next rfl rfl h
    exact ⟨rfl, rfl, rfl, rfl, rfl⟩

/-- Settles O8: the reset values, the frame of each context, and what each `END` leaves. -/
theorem registersResetAndTheirWriters : Obligations.RegistersResetAndTheirWriters := by
  refine ⟨⟨⟨rfl, rfl⟩, rfl, rfl, rfl, rfl, rfl⟩, fun i s t h => ?_⟩
  refine ⟨fun hi => exec_keeps_enc hi h, fun hi => exec_keeps_dec hi h, ?_, ?_⟩
  · rintro rfl
    exact encEnd_leaves_idle h
  · rintro rfl
    exact decEnd_leaves_idle h

/-- Settles O16: a waiting step and the reset input leave both lists alone, and a command appends one
response. -/
theorem tablesNeverChange : Obligations.TablesNeverChange := by
  intro s t h
  rcases step_cases h with ⟨-, rfl⟩ | ⟨rest, -, rfl⟩ | ⟨w, rest, -, -, he⟩
  · exact ⟨rfl, List.prefix_rfl⟩
  · exact ⟨rfl, List.prefix_rfl⟩
  · obtain ⟨⟨r, hr⟩, htable, -⟩ := exec_answers he
    exact ⟨htable, [r], hr.symm⟩

/-- Settles O36, from what `DEC.PUSH` answers and what `DEC.END` leaves. -/
theorem decodePositionCountsAcceptedSymbols : Obligations.DecodePositionCountsAcceptedSymbols := by
  refine ⟨fun tok s t r h hr => ?_, fun s t h => (decEnd_leaves_idle h).2.2.1⟩
  obtain ⟨r', hr', hcase⟩ := decPush_answer h
  obtain rfl := response_unique hr hr'
  rcases hcase with ⟨hok, hpos⟩ | ⟨herr, hpos⟩
  · refine ⟨fun _ => ?_, fun hne => absurd hok hne⟩
    rw [hpos, BitVec.toNat_add]
    rfl
  · refine ⟨fun hok => ?_, fun _ => hpos⟩
    rw [hok] at herr
    exact absurd herr (by decide)

/-! ### The reverse index is the inverse of the forward table (R29, R30) -/

theorem rev_fwd (t : Table) (c : SymCode) : rev t (fwd t c) = some c :=
  (rev_eq_of_place (fwd_eq_get t c)).trans (codeAtPlace_codePlace c)

/-- Every token of the table is the token of a code: the places below 1364 are the codes'. -/
theorem exists_code_of_mem {t : Table} {tok : Token} (h : tok ∈ t.symbols) :
    ∃ c, fwd t c = tok := by
  obtain ⟨p, hp, rfl⟩ := List.mem_iff_getElem.1 h
  obtain ⟨c, -, rfl⟩ := codePlace_of_codeAtPlace (t.size ▸ hp)
  exact ⟨c, rfl⟩

theorem rev_eq_some_iff {t : Table} {tok : Token} {c : SymCode} :
    rev t tok = some c ↔ fwd t c = tok := by
  constructor
  · intro h
    have hmem : tok ∈ t.symbols := by
      by_contra hn
      rw [rev_eq_none_of_not_mem hn] at h
      cases h
    obtain ⟨d, rfl⟩ := exists_code_of_mem hmem
    rw [rev_fwd] at h
    rw [Option.some.inj h]
  · rintro rfl
    exact rev_fwd t c

theorem rev_eq_none_iff {t : Table} {tok : Token} : rev t tok = none ↔ ∀ c, fwd t c ≠ tok := by
  simp only [Option.eq_none_iff_forall_ne_some, ne_eq, rev_eq_some_iff]

/-- No token belongs to two codes (R29): the reverse read tells which code it was. -/
theorem fwd_injective (t : Table) : Function.Injective (fwd t) := fun c d h =>
  Option.some.inj ((rev_fwd t c).symm.trans ((congrArg (rev t) h).trans (rev_fwd t d)))

/-- Settles O23, by the two equivalences of the reverse read. -/
theorem reverseIndexInvertsForwardTable : Obligations.ReverseIndexInvertsForwardTable :=
  fun _ _ => ⟨fun _ => rev_eq_some_iff, rev_eq_none_iff⟩

theorem encodeFn_nil : encodeFn [] = [] := rfl

theorem decodeFn_nil (t : Table) : decodeFn t [] = .ok [] := by
  simp [decodeFn, firstUnknown, firstPad, decodeRegular, wholeBytes, bitsLength]

/-- Settles O25: equal tokens have equal codes, and the empty stream has no symbol and no byte. -/
theorem alphabetsAreDisjointAndEmptyIsEmpty : Obligations.AlphabetsAreDisjointAndEmptyIsEmpty := by
  refine ⟨fun t c d h => ?_, encodeFn_nil, decodeFn_nil⟩
  obtain rfl := fwd_injective t h
  exact ⟨rfl, rfl⟩

end Sys2Proof.Machine

/-! ### The encode and the decode context are independent (R46) -/

namespace Sys2Proof.Machine

/-- Two states with the same encode context and the same table. -/
def SameEnc (s u : State) : Prop := u.table = s.table ∧ u.eacc = s.eacc ∧ u.ecnt = s.ecnt

/-- Two states with the same decode context and the same table. -/
def SameDec (s u : State) : Prop :=
  u.table = s.table ∧ u.dacc = s.dacc ∧ u.dcnt = s.dcnt ∧ u.dpos = s.dpos ∧ u.dst = s.dst ∧
    u.depos = s.depos

/-- A step from `s` to `s'` and one from `u` to `u'` answer the same and end the same, as far as `same`
looks. -/
def SameAnswer (same : State → State → Prop) (s s' u u' : State) : Prop :=
  same s' u' ∧ ∃ r, s'.rsps = s.rsps ++ [r] ∧ u'.rsps = u.rsps ++ [r]

/-! The encode commands read and write the encode context only. -/

/-- The response of `ENC.END` (R69): the tail symbol of the bits held, if there is one. -/
def State.encEndResponse (s : State) : RspWord :=
  match tailCode s.ecnt.toNat (field s.eacc.toNat 0 s.ecnt.toNat) with
  | some c => rspWord 0 1 (fwd s.table c)
  | none => rspWord 0 0 0

/-- `ENC.END` in a legal state (R69). -/
theorem exec_encEnd_of {s : State} (h : s.Legal) :
    exec .encEnd s = .next { s.clearEnc with rsps := s.rsps ++ [s.encEndResponse] } := by
  simp only [exec, execEncEnd, whenLegal_of_legal h, State.encEndResponse]
  cases tailCode s.ecnt.toNat (field s.eacc.toNat 0 s.ecnt.toNat) <;> rfl

theorem encCmd_sameAnswer {i : Instr} (hi : isEncCmd i = true) {s s' u u' : State}
    (h : SameEnc s u) (hs : exec i s = .next s') (hu : exec i u = .next u') :
    SameAnswer SameEnc s s' u u' := by
  have hls := legal_of_exec_next hs
  have hlu := legal_of_exec_next hu
  obtain ⟨htable, heacc, hecnt⟩ := h
  cases i with
  | encPush b =>
    rw [exec_encPush_of hls] at hs
    rw [exec_encPush_of hlu, htable, heacc, hecnt] at hu
    split_ifs at hs hu <;> (cases hs; cases hu; exact ⟨⟨rfl, rfl, rfl⟩, _, rfl, rfl⟩)
  | encEnd =>
    have hresp : u.encEndResponse = s.encEndResponse := by
      simp only [State.encEndResponse, htable, heacc, hecnt]
    rw [exec_encEnd_of hls] at hs
    rw [exec_encEnd_of hlu, hresp] at hu
    cases hs
    cases hu
    exact ⟨⟨htable, rfl, rfl⟩, _, rfl, rfl⟩
  | decPush _ | decEnd | ridxLookup _ | rd _ | illegal _ => cases hi

/-! The decode commands read and write the decode context only, in each arm of R78. -/

theorem SameDec.phase_eq {s u : State} (h : SameDec s u) : u.phase = s.phase := by
  obtain ⟨-, -, -, -, hdst, -⟩ := h
  simp only [State.phase, hdst]

theorem SameDec.err_eq {s u : State} (h : SameDec s u) : u.err = s.err := by
  obtain ⟨-, -, -, -, hdst, -⟩ := h
  simp only [State.err, hdst]

theorem SameDec.endResponse_eq {s u : State} (h : SameDec s u) : u.endResponse = s.endResponse := by
  have hphase := h.phase_eq
  have herr := h.err_eq
  obtain ⟨-, -, hdcnt, hdpos, -, hdepos⟩ := h
  rw [State.endResponse, hphase, herr, hdcnt, hdpos, hdepos, State.endResponse]

theorem raise_sameAnswer {s u : State} (h : SameDec s u) (e : DecError) :
    SameAnswer SameDec s (s.raise e) u (u.raise e) := by
  obtain ⟨htable, hdacc, hdcnt, hdpos, -, -⟩ := h
  exact ⟨⟨htable, hdacc, hdcnt, hdpos, rfl, hdpos⟩, _, rfl, by rw [raise_rsps, hdpos]⟩

theorem repeatError_sameAnswer {s u : State} (h : SameDec s u) :
    SameAnswer SameDec s s.repeatError u u.repeatError := by
  refine ⟨h, _, rfl, ?_⟩
  have herr := h.err_eq
  obtain ⟨-, -, -, -, -, hdepos⟩ := h
  rw [repeatError_eq_respond, respond_rsps, herr, hdepos]

theorem pushRegular_sameAnswer {s u : State} (h : SameDec s u) (i : BitVec 10) :
    SameAnswer SameDec s (s.pushRegular i) u (u.pushRegular i) := by
  obtain ⟨htable, hdacc, hdcnt, hdpos, hdst, hdepos⟩ := h
  simp only [State.pushRegular, hdacc, hdcnt, hdpos]
  split_ifs <;> exact ⟨⟨htable, rfl, rfl, rfl, hdst, hdepos⟩, _, rfl, rfl⟩

theorem pushPad_sameAnswer {s u : State} (h : SameDec s u) (w idx : Nat) :
    SameAnswer SameDec s (s.pushPad w idx) u (u.pushPad w idx) := by
  have hraise := raise_sameAnswer h .malformedPadding
  have hdst : dstOf u.err phasePadded = dstOf s.err phasePadded := by rw [h.err_eq]
  obtain ⟨htable, hdacc, hdcnt, hdpos, -, hdepos⟩ := h
  simp only [State.pushPad, hdacc, hdcnt, hdpos]
  split_ifs
  · exact hraise
  all_goals exact ⟨⟨htable, rfl, rfl, rfl, hdst, hdepos⟩, _, rfl, rfl⟩

theorem pushLooked_sameAnswer {s u : State} (h : SameDec s u) (found : Option SymCode) :
    SameAnswer SameDec s (s.pushLooked found) u (u.pushLooked found) := by
  rcases found with _ | i | i | i | i | i
  · exact raise_sameAnswer h _
  · exact pushRegular_sameAnswer h i
  all_goals exact pushPad_sameAnswer h _ _

theorem pushSym_sameAnswer {s u : State} (h : SameDec s u) (tok : Token) :
    SameAnswer SameDec s (s.pushSym tok) u (u.pushSym tok) := by
  simp only [State.pushSym, h.phase_eq, h.1]
  split_ifs
  · exact repeatError_sameAnswer h
  · exact raise_sameAnswer h _
  · exact pushLooked_sameAnswer h _

theorem decCmd_sameAnswer {i : Instr} (hi : isDecCmd i = true) {s s' u u' : State}
    (h : SameDec s u) (hs : exec i s = .next s') (hu : exec i u = .next u') :
    SameAnswer SameDec s s' u u' := by
  cases i with
  | decPush tok =>
    obtain ⟨-, hs⟩ := whenLegal_eq_next.1 hs
    obtain ⟨-, hu⟩ := whenLegal_eq_next.1 hu
    cases hs
    cases hu
    exact pushSym_sameAnswer h tok
  | decEnd =>
    obtain ⟨-, rfl⟩ := decEnd_next hs
    obtain ⟨-, rfl⟩ := decEnd_next hu
    exact ⟨⟨h.1, rfl, rfl, rfl, rfl, rfl⟩, _, rfl, by rw [h.endResponse_eq]⟩
  | encPush _ | encEnd | ridxLookup _ | rd _ | illegal _ => cases hi

/-! A context that other commands leave alone, along a run. -/

/-- A context, given by its commands and by the states that agree on it: its own commands answer and
end the same wherever it is the same, and every other command leaves it as it is. -/
structure ContextIsolated (kind : Instr → Bool) (same : State → State → Prop) : Prop where
  refl : ∀ s, same s s
  own : ∀ {i : Instr} {s s' u u' : State}, kind i = true → same s u → exec i s = .next s' →
    exec i u = .next u' → SameAnswer same s s' u u'
  foreign : ∀ {i : Instr} {s s' u : State}, kind i = false → same s u → exec i s = .next s' →
    same s' u

theorem encContext_isolated : ContextIsolated isEncCmd SameEnc where
  refl _ := ⟨rfl, rfl, rfl⟩
  own hi h hs hu := encCmd_sameAnswer hi h hs hu
  foreign hi h hs := by
    obtain ⟨htable, heacc, hecnt⟩ := h
    obtain ⟨heacc', hecnt'⟩ := exec_keeps_enc hi hs
    obtain ⟨-, htable', -⟩ := exec_answers hs
    exact ⟨htable.trans htable'.symm, heacc.trans heacc'.symm, hecnt.trans hecnt'.symm⟩

theorem decContext_isolated : ContextIsolated isDecCmd SameDec where
  refl _ := ⟨rfl, rfl, rfl, rfl, rfl, rfl⟩
  own hi h hs hu := decCmd_sameAnswer hi h hs hu
  foreign hi h hs := by
    obtain ⟨htable, hdacc, hdcnt, hdpos, hdst, hdepos⟩ := h
    obtain ⟨hdacc', hdcnt', hdpos', hdst', hdepos'⟩ := exec_keeps_dec hi hs
    obtain ⟨-, htable', -⟩ := exec_answers hs
    exact ⟨htable.trans htable'.symm, hdacc.trans hdacc'.symm, hdcnt.trans hdcnt'.symm,
      hdpos.trans hdpos'.symm, hdst.trans hdst'.symm, hdepos.trans hdepos'.symm⟩

theorem answersTo_cons_own {kind : Instr → Bool} {i : Instr} (hi : kind i = true) (is : List Instr)
    (r : RspWord) (rs : List RspWord) :
    answersTo kind (i :: is) (r :: rs) = r :: answersTo kind is rs := by
  simp [answersTo, hi]

theorem answersTo_cons_foreign {kind : Instr → Bool} {i : Instr} (hi : kind i = false)
    (is : List Instr) (r : RspWord) (rs : List RspWord) :
    answersTo kind (i :: is) (r :: rs) = answersTo kind is rs := by
  simp [answersTo, hi]

/-- A command has a next state in a legal state. -/
theorem exec_answers_of_legal (i : Instr) {s : State} (h : s.Legal) : ∃ t, exec i s = .next t :=
  (exec_outcome i s).elim (fun hn => absurd h hn.1) fun ht => ht.2

/-- The commands of an isolated context, run alone, end its context as the whole run does and get the
responses that they get there, by induction on the commands: one of the context steps both runs, and
any other steps the whole run only. -/
theorem ContextIsolated.run_filter {kind : Instr → Bool} {same : State → State → Prop}
    (hctx : ContextIsolated kind same) (is : List Instr) (hwf : ∀ i ∈ is, i.wellFormed = true)
    {s u : State} (hs : s.Legal) (hu : u.Legal) (hsame : same s u) :
    ∃ (t v : State) (rs : List RspWord),
      core.run is.length (s.presentAll is) = .next t ∧
      core.run (is.filter kind).length (u.presentAll (is.filter kind)) = .next v ∧
      t.rsps = s.rsps ++ rs ∧ rs.length = is.length ∧
      v.rsps = u.rsps ++ answersTo kind is rs ∧ same t v := by
  induction is generalizing s u with
  | nil => exact ⟨s, u, [], rfl, rfl, by simp, rfl, by simp [answersTo], hsame⟩
  | cons i is ih =>
    obtain ⟨hwfi, hwf⟩ := List.forall_mem_cons.1 hwf
    have hdec := decode_encode hwfi
    obtain ⟨s', hs'⟩ := exec_answers_of_legal i hs
    have hls' := exec_keeps_legal hs'
    cases hk : kind i with
    | true =>
      obtain ⟨u', hu'⟩ := exec_answers_of_legal i hu
      obtain ⟨hsame', r, hr, hr'⟩ := hctx.own hk hsame hs' hu'
      obtain ⟨t, v, rs, ht, hv, hrs, hlen, hans, hend⟩ :=
        ih hwf hls' (exec_keeps_legal hu') hsame'
      refine ⟨t, v, r :: rs, ?_, ?_, ?_, ?_, ?_, hend⟩
      · exact (run_presentAll hdec hs').trans ht
      · rw [List.filter_cons_of_pos hk]
        exact (run_presentAll hdec hu').trans hv
      · rw [hrs, hr, List.append_assoc, List.singleton_append]
      · rw [List.length_cons, List.length_cons, hlen]
      · rw [hans, hr', answersTo_cons_own hk, List.append_assoc, List.singleton_append]
    | false =>
      obtain ⟨⟨r, hr⟩, -, -⟩ := exec_answers hs'
      obtain ⟨t, v, rs, ht, hv, hrs, hlen, hans, hend⟩ :=
        ih hwf hls' hu (hctx.foreign hk hsame hs')
      refine ⟨t, v, r :: rs, ?_, ?_, ?_, ?_, ?_, hend⟩
      · exact (run_presentAll hdec hs').trans ht
      · rw [List.filter_cons_of_neg (by rw [hk]; decide)]
        exact hv
      · rw [hrs, hr, List.append_assoc, List.singleton_append]
      · rw [List.length_cons, List.length_cons, hlen]
      · rw [hans, answersTo_cons_foreign hk]

/-- Settles O39: both contexts are isolated, and the two comparisons speak of the same whole run. -/
theorem contextsAreIndependent : Obligations.ContextsAreIndependent := by
  intro is s hl _ hwf
  obtain ⟨t, te, rs, ht, hte, hrs, hlen, hre, -, heacc, hecnt⟩ :=
    encContext_isolated.run_filter is hwf hl hl (encContext_isolated.refl s)
  obtain ⟨t', td, rs', ht', htd, hrs', -, hrd, -, hdec⟩ :=
    decContext_isolated.run_filter is hwf hl hl (decContext_isolated.refl s)
  obtain rfl : t = t' := Host.Outcome.next.inj (ht.symm.trans ht')
  obtain rfl : rs = rs' := List.append_cancel_left (hrs.symm.trans hrs')
  exact ⟨t, te, td, rs, _, _, ht, hte, htd, hrs, hre, hrd, hlen, rfl, rfl, heacc, hecnt, hdec⟩

end Sys2Proof.Machine

/-! ### The bits of the encoded stream (R39) -/

namespace Sys2Proof.Machine

theorem testBit_shiftIn {w x : Nat} (v : Nat) (hx : x < 2 ^ w) (q : Nat) :
    (shiftIn v w x).testBit q = if q < w then x.testBit q else v.testBit (q - w) := by
  rw [shiftIn, Nat.testBit_or, Nat.testBit_shiftLeft]
  split_ifs with hq
  · simp [Nat.not_le.2 hq]
  · have hx0 : x.testBit q = false :=
      Nat.testBit_lt_two_pow (hx.trans_le (Nat.pow_le_pow_right (by decide) (not_lt.1 hq)))
    simp [hx0, not_lt.1 hq]

theorem testBit_field (v lo : Nat) {len q : Nat} (hq : q < len) :
    (field v lo len).testBit q = v.testBit (lo + q) := by
  simp [field, hq]

/-- The stream number from its low end: the last byte holds the eight lowest bits. -/
theorem testBit_streamNumber (bs : List Byte) (q : Nat) :
    (streamNumber bs).testBit q = (bs.reverse.getD (q / 8) 0).getLsbD (q % 8) := by
  induction bs using List.reverseRecOn generalizing q with
  | nil => simp [streamNumber]
  | append_singleton bs b ih =>
    have hsnoc : streamNumber (bs ++ [b]) = shiftIn (streamNumber bs) 8 b.toNat := by
      simp [streamNumber]
    rw [hsnoc, testBit_shiftIn _ b.isLt, List.reverse_concat]
    split_ifs with hq
    · rw [Nat.div_eq_of_lt hq, Nat.mod_eq_of_lt hq]
      rfl
    · rw [ih, show q / 8 = (q - 8) / 8 + 1 by omega, show q % 8 = (q - 8) % 8 by omega]
      rfl

/-- The stream number from its high end (R39): bit `p` of the stream, the most significant first, is
bit `7 - p mod 8` of byte `p div 8`. -/
theorem testBit_streamNumber_of_stream {bs : List Byte} {p q : Nat} (h : q + p + 1 = 8 * bs.length) :
    (streamNumber bs).testBit q = (bs.getD (p / 8) 0).getLsbD (7 - p % 8) := by
  rw [testBit_streamNumber, List.getD_reverse _ (by omega),
    show bs.length - 1 - q / 8 = p / 8 by omega, show q % 8 = 7 - p % 8 by omega]

/-- The `Regular` codes stand first, in the order of their groups (R94). -/
theorem encodeFn_getElem?_group {bs : List Byte} {j : Nat} (hj : j < 8 * bs.length / 10) :
    (encodeFn bs)[j]? = some (.regular (BitVec.ofNat 10
      (field (streamNumber bs) (8 * bs.length - 10 - 10 * j) 10))) := by
  simp [encodeFn, List.getElem?_append_left, hj]

/-- After the groups comes the tail (R94). -/
theorem encodeFn_getElem?_tail (bs : List Byte) :
    (encodeFn bs)[8 * bs.length / 10]? =
      tailCode (8 * bs.length % 10) (field (streamNumber bs) 0 (8 * bs.length % 10)) := by
  rw [encodeFn, List.getElem?_append_right (by simp), List.length_map, List.length_range,
    Nat.sub_self]
  cases tailCode (8 * bs.length % 10) (field (streamNumber bs) 0 (8 * bs.length % 10)) <;> rfl

/-- The four tail widths of R70: a padding code of that width whose index is the bits as they stand. -/
theorem tailCode_of_width {w r : Nat} (hw : w = 2 ∨ w = 4 ∨ w = 6 ∨ w = 8) (hr : r < 2 ^ w) :
    ∃ c, tailCode w r = some c ∧ isPad c = true ∧ clsWidth (codeCls c) = w ∧
      (codeIdx c).toNat = r := by
  rcases hw with rfl | rfl | rfl | rfl <;>
    refine ⟨_, if_pos hr, rfl, rfl, ?_⟩ <;>
    simp only [codeIdx, BitVec.toNat_setWidth, BitVec.toNat_ofNat] <;> omega

/-- Settles O40: group `j` ends at bit `8n - 10 - 10j` of the stream number and the tail at bit 0, and
the stream number has the stream's bits in their order. -/
theorem groupsAreCutFromTheBitStreamInOrder : Obligations.GroupsAreCutFromTheBitStreamInOrder := by
  intro bs bit
  refine ⟨fun j hj => ⟨_, encodeFn_getElem?_group hj, fun k hk => ?_⟩, fun htail => ?_⟩
  · rw [BitVec.getLsbD_ofNat, testBit_field _ _ (by omega),
      testBit_streamNumber_of_stream (p := 10 * j + k) (by omega), decide_eq_true (by omega),
      Bool.true_and]
  · obtain ⟨c, hc, hpad, hwidth, hidx⟩ := tailCode_of_width (w := 8 * bs.length % 10) (by omega)
      (field_lt (streamNumber bs) 0 _)
    refine ⟨c, (encodeFn_getElem?_tail bs).trans hc, hpad, hwidth, fun k hk => ?_⟩
    rw [← BitVec.testBit_toNat, hidx, testBit_field _ _ (by omega),
      testBit_streamNumber_of_stream (p := 10 * (8 * bs.length / 10) + k) (by omega)]

end Sys2Proof.Machine

/-! ### The words of the commands, in arithmetic (R51, R52, R59, R62) -/

namespace Sys2Proof

theorem opcOf_toNat (c : CmdWord) : (opcOf c).toNat = c.toNat % 256 := by
  simp [opcOf]

theorem argOf_toNat (c : CmdWord) : (argOf c).toNat = c.toNat / 256 := by
  have := c.isLt
  simp only [argOf, BitVec.extractLsb'_toNat, Nat.shiftRight_eq_div_pow]
  omega

theorem cmdWord_argOf_opcOf (c : CmdWord) : cmdWord (argOf c) (opcOf c) = c := by
  refine BitVec.eq_of_toNat_eq ((Machine.toNat_append' _ _).trans ?_)
  rw [argOf_toNat, opcOf_toNat]
  omega

/-- A word is put together from its two fields. -/
theorem eq_cmdWord {c : CmdWord} {arg : BitVec 64} {opc : BitVec 8}
    (hopc : c.toNat % 256 = opc.toNat) (harg : c.toNat / 256 = arg.toNat) :
    c = cmdWord arg opc := by
  rw [← cmdWord_argOf_opcOf c,
    BitVec.eq_of_toNat_eq ((argOf_toNat c).trans harg),
    BitVec.eq_of_toNat_eq ((opcOf_toNat c).trans hopc)]

/-- `ARG` is at most 64 bits long, so its number is the operand of `DEC.PUSH` and `RIDX.LOOKUP`. -/
theorem toNat_ofNat_arg (c : CmdWord) : (BitVec.ofNat 64 (c.toNat / 256)).toNat = c.toNat / 256 := by
  rw [BitVec.toNat_ofNat]
  exact Nat.mod_eq_of_lt (argOf_toNat c ▸ (argOf c).isLt)

/-! Each clause of R52: a word with the `OPC` and an `ARG` of the clause is the word of its command. -/

theorem eq_encode_encPush {c : CmdWord} (hopc : c.toNat % 256 = 1) (harg : c.toNat / 256 < 256) :
    c = encode (.encPush (BitVec.ofNat 8 (c.toNat / 256))) := by
  refine eq_cmdWord hopc ?_
  rw [BitVec.toNat_setWidth, BitVec.toNat_ofNat]
  omega

theorem eq_encode_encEnd {c : CmdWord} (hopc : c.toNat % 256 = 2) (harg : c.toNat / 256 = 0) :
    c = encode .encEnd :=
  eq_cmdWord hopc harg

theorem eq_encode_decPush {c : CmdWord} (hopc : c.toNat % 256 = 3) :
    c = encode (.decPush (BitVec.ofNat 64 (c.toNat / 256))) :=
  eq_cmdWord hopc (toNat_ofNat_arg c).symm

theorem eq_encode_decEnd {c : CmdWord} (hopc : c.toNat % 256 = 4) (harg : c.toNat / 256 = 0) :
    c = encode .decEnd :=
  eq_cmdWord hopc harg

theorem eq_encode_ridxLookup {c : CmdWord} (hopc : c.toNat % 256 = 5) :
    c = encode (.ridxLookup (BitVec.ofNat 64 (c.toNat / 256))) :=
  eq_cmdWord hopc (toNat_ofNat_arg c).symm

/-- Each number up to 6 is the number of a register (R34). -/
theorem Reg.exists_number {n : Nat} (h : n ≤ 6) : ∃ r : Reg, r.number.toNat = n := by
  interval_cases n
  exacts [⟨.eacc, rfl⟩, ⟨.ecnt, rfl⟩, ⟨.dacc, rfl⟩, ⟨.dcnt, rfl⟩, ⟨.dpos, rfl⟩, ⟨.dst, rfl⟩,
    ⟨.depos, rfl⟩]

theorem eq_encode_rd {c : CmdWord} (hopc : c.toNat % 256 = 6) (harg : c.toNat / 256 ≤ 6) :
    ∃ r : Reg, c = encode (.rd r) ∧ r.number.toNat = c.toNat / 256 := by
  obtain ⟨r, hr⟩ := Reg.exists_number harg
  refine ⟨r, eq_cmdWord hopc ?_, hr⟩
  rw [BitVec.toNat_setWidth, hr]
  omega

/-- R59's list of the illegal words in the numbers of `OPC` and `ARG`. -/
theorem illegalWord_iff (c : CmdWord) :
    illegalWord c = true ↔
      c.toNat % 256 = 0x00 ∨ 0x07 ≤ c.toNat % 256 ∨ (c.toNat % 256 = 0x01 ∧ 256 ≤ c.toNat / 256) ∨
      (c.toNat % 256 = 0x02 ∧ c.toNat / 256 ≠ 0) ∨ (c.toNat % 256 = 0x04 ∧ c.toNat / 256 ≠ 0) ∨
      (c.toNat % 256 = 0x06 ∧ 6 < c.toNat / 256) := by
  simp only [illegalWord, show c.extractLsb' 0 8 = opcOf c from rfl,
    show c.extractLsb' 8 64 = argOf c from rfl, opcOf_toNat, argOf_toNat, Bool.or_eq_true,
    Bool.and_eq_true, beq_iff_eq, bne_iff_ne, decide_eq_true_eq]
  omega

/-- The words that are not on R59's list, clause by clause of R52. -/
theorem opc_arg_cases_of_not_illegalWord {c : CmdWord} (h : ¬ illegalWord c = true) :
    (c.toNat % 256 = 1 ∧ c.toNat / 256 < 256) ∨ (c.toNat % 256 = 2 ∧ c.toNat / 256 = 0) ∨
      c.toNat % 256 = 3 ∨ (c.toNat % 256 = 4 ∧ c.toNat / 256 = 0) ∨ c.toNat % 256 = 5 ∨
      (c.toNat % 256 = 6 ∧ c.toNat / 256 ≤ 6) := by
  rw [illegalWord_iff] at h
  have hopc : c.toNat % 256 = 1 ∨ c.toNat % 256 = 2 ∨ c.toNat % 256 = 3 ∨ c.toNat % 256 = 4 ∨
      c.toNat % 256 = 5 ∨ c.toNat % 256 = 6 := by omega
  rcases hopc with hopc | hopc | hopc | hopc | hopc | hopc <;>
    simp [hopc] at h ⊢ <;> omega

/-- Every word that is not on R59's list is the word of a well-formed command. -/
theorem exists_encode_of_not_illegalWord {c : CmdWord} (h : ¬ illegalWord c = true) :
    ∃ i : Instr, i.wellFormed = true ∧ c = encode i := by
  rcases opc_arg_cases_of_not_illegalWord h with
    ⟨hopc, harg⟩ | ⟨hopc, harg⟩ | hopc | ⟨hopc, harg⟩ | hopc | ⟨hopc, harg⟩
  · exact ⟨_, rfl, eq_encode_encPush hopc harg⟩
  · exact ⟨_, rfl, eq_encode_encEnd hopc harg⟩
  · exact ⟨_, rfl, eq_encode_decPush hopc⟩
  · exact ⟨_, rfl, eq_encode_decEnd hopc harg⟩
  · exact ⟨_, rfl, eq_encode_ridxLookup hopc⟩
  · obtain ⟨r, hr, -⟩ := eq_encode_rd hopc harg
    exact ⟨_, rfl, hr⟩

/-- Encoding what a word decodes to gives the word back, an illegal word because its term keeps it. -/
theorem encode_decode (c : CmdWord) : encode (decode c) = c := by
  by_cases h : illegalWord c = true
  · rw [decode_of_illegalWord h]
    rfl
  · obtain ⟨i, hi, rfl⟩ := exists_encode_of_not_illegalWord h
    rw [decode_encode hi]

/-- Settles O2, from the two round trips. -/
theorem decodeAndEncodeAgree : Obligations.DecodeAndEncodeAgree :=
  ⟨fun _ => decode_encode, encode_decode⟩

/-- A word that is the word of a well-formed command decodes to it. -/
theorem decode_of_eq_encode {c : CmdWord} {i : Instr} (h : c = encode i)
    (hi : i.wellFormed = true) : decode c = i :=
  (congrArg decode h).trans (decode_encode hi)

/-- Settles O3: each of the six clauses names the command whose word it is, and the last one is R59's
list. -/
theorem everyWordDecodesByTheOpcodeMap : Obligations.EveryWordDecodesByTheOpcodeMap := by
  intro c opc arg
  refine ⟨fun h ha => decode_of_eq_encode (eq_encode_encPush h ha) rfl,
    fun h ha => decode_of_eq_encode (eq_encode_encEnd h ha) rfl,
    fun h => decode_of_eq_encode (eq_encode_decPush h) rfl,
    fun h ha => decode_of_eq_encode (eq_encode_decEnd h ha) rfl,
    fun h => decode_of_eq_encode (eq_encode_ridxLookup h) rfl,
    fun h ha => ?_,
    fun h => decode_of_illegalWord ((illegalWord_iff c).2 h)⟩
  obtain ⟨r, hr, hnum⟩ := eq_encode_rd h ha
  exact ⟨r, decode_of_eq_encode hr rfl, hnum⟩

/-- Settles O1: eight closed evaluations of the decoder. -/
theorem commandWordsDecodeAsWritten : Obligations.CommandWordsDecodeAsWritten := by
  unfold Obligations.CommandWordsDecodeAsWritten
  decide

/-! The masks of the opcode table: all of `OPC`, and the bits of `ARG` from some bit up. -/

/-- A line of the table that fixes `OPC` and the bits of `ARG` from bit `k` up. -/
def opcodeLine (row : Row) (opc : BitVec 8) (k : Nat) (arg : BitVec 64) : OpcodeRow :=
  ⟨row, cmdWord arg opc, cmdWord (BitVec.allOnes 64 <<< k) (BitVec.allOnes 8)⟩

theorem opcodeTable_eq_lines : opcodeTable =
    [opcodeLine .encPush 1 8 0, opcodeLine .encEnd 2 0 0, opcodeLine .decPush 3 64 0,
      opcodeLine .decEnd 4 0 0, opcodeLine .ridxLookup 5 64 0, opcodeLine .rd 6 2 0,
      opcodeLine .rd 6 1 4, opcodeLine .rd 6 0 6] := by
  decide

theorem cmdWord_inj {a b : BitVec 64} {o p : BitVec 8} :
    cmdWord a o = cmdWord b p ↔ a = b ∧ o = p := by
  refine ⟨fun h => ⟨?_, ?_⟩, fun ⟨ha, ho⟩ => by rw [ha, ho]⟩
  · simpa only [argOf_cmdWord] using congrArg argOf h
  · simpa only [Laws.OpcField.opcOf_cmdWord] using congrArg opcOf h

/-- A bit mask that starts at bit `k` cuts off the remainder by `2^k`. -/
theorem toNat_and_allOnes_shiftLeft (x : BitVec 64) (k : Nat) :
    (x &&& BitVec.allOnes 64 <<< k).toNat = x.toNat / 2 ^ k * 2 ^ k := by
  rw [← BitVec.shiftLeft_ushiftRight, BitVec.toNat_shiftLeft, BitVec.toNat_ushiftRight,
    Nat.shiftLeft_eq, Nat.shiftRight_eq_div_pow]
  exact Nat.mod_eq_of_lt ((Nat.div_mul_le_self _ _).trans_lt x.isLt)

/-- Which words a line takes, in the numbers of `OPC` and `ARG`. -/
theorem takes_opcodeLine_iff {row : Row} {opc : BitVec 8} {k : Nat} {arg : BitVec 64}
    (w : CmdWord) : (opcodeLine row opc k arg).takes w = true ↔
      w.toNat % 256 = opc.toNat ∧ w.toNat / 256 / 2 ^ k * 2 ^ k = arg.toNat := by
  have hand : w &&& cmdWord (BitVec.allOnes 64 <<< k) (BitVec.allOnes 8) =
      cmdWord (argOf w &&& BitVec.allOnes 64 <<< k) (opcOf w) := by
    conv_lhs => rw [← cmdWord_argOf_opcOf w]
    rw [cmdWord, cmdWord, BitVec.and_append, BitVec.and_allOnes, cmdWord]
  rw [OpcodeRow.takes, beq_iff_eq, opcodeLine, hand, cmdWord_inj, ← BitVec.toNat_inj,
    ← BitVec.toNat_inj, toNat_and_allOnes_shiftLeft, argOf_toNat, opcOf_toNat, and_comm]

/-- The words that a line takes decode to its row. -/
theorem row_decode_of_takes {w : CmdWord} {o : OpcodeRow} (ho : o ∈ opcodeTable)
    (h : o.takes w = true) : (decode w).row = o.row := by
  obtain ⟨hencPush, hencEnd, hdecPush, hdecEnd, hlookup, hrd, -⟩ := everyWordDecodesByTheOpcodeMap w
  have hrd : w.toNat % 256 = 6 → w.toNat / 256 ≤ 6 → (decode w).row = .rd := fun hopc harg => by
    obtain ⟨r, hr, -⟩ := hrd hopc harg
    exact congrArg Instr.row hr
  revert o
  simp only [opcodeTable_eq_lines, List.forall_mem_cons, takes_opcodeLine_iff, BitVec.reduceToNat]
  refine ⟨?_, ?_, ?_, ?_, ?_, ?_, ?_, ?_, by simp⟩
  · exact fun ⟨hopc, harg⟩ => congrArg Instr.row (hencPush hopc (by omega))
  · exact fun ⟨hopc, harg⟩ => congrArg Instr.row (hencEnd hopc (by omega))
  · exact fun ⟨hopc, _⟩ => congrArg Instr.row (hdecPush hopc)
  · exact fun ⟨hopc, harg⟩ => congrArg Instr.row (hdecEnd hopc (by omega))
  · exact fun ⟨hopc, _⟩ => congrArg Instr.row (hlookup hopc)
  · exact fun ⟨hopc, harg⟩ => hrd hopc (by omega)
  · exact fun ⟨hopc, harg⟩ => hrd hopc (by omega)
  · exact fun ⟨hopc, harg⟩ => hrd hopc (by omega)

/-- The lines take every word that is not on R59's list, those of `RD` the registers 0 to 3, 4 and 5,
and 6. -/
theorem exists_line_takes_of_not_illegalWord {w : CmdWord} (h : ¬ illegalWord w = true) :
    ∃ o ∈ opcodeTable, o.takes w = true := by
  simp only [opcodeTable_eq_lines, List.exists_mem_cons_iff, takes_opcodeLine_iff,
    BitVec.reduceToNat]
  rcases opc_arg_cases_of_not_illegalWord h with
    ⟨hopc, harg⟩ | ⟨hopc, harg⟩ | hopc | ⟨hopc, harg⟩ | hopc | ⟨hopc, harg⟩ <;>
    simp [hopc] <;> omega

/-- Settles O4: a line's words decode to its row, and a word without a line is on R59's list. -/
theorem opcodeTableLinesDecodeToTheirRow : Obligations.OpcodeTableLinesDecodeToTheirRow := by
  refine fun w => ⟨fun o ho => row_decode_of_takes ho, fun hnone => decode_of_illegalWord ?_⟩
  by_contra h
  obtain ⟨o, ho, htakes⟩ := exists_line_takes_of_not_illegalWord h
  exact absurd htakes (by rw [hnone o ho]; decide)

end Sys2Proof

/-! ### Every command is answered, in order, with one of its own statuses (R50, R55, R91) -/

namespace Sys2Proof.Machine

/-- Settles O6: with nothing at the ports the block waits. -/
theorem noCommandNoResponse : Obligations.NoCommandNoResponse := fun _ => step_of_nil

theorem exec_illegal_of {w : CmdWord} {s : State} (h : s.Legal) :
    exec (.illegal w) s = .next (s.respond (statusCode .illegalCommand) 0 0) :=
  whenLegal_of_legal h

/-- Settles O38: a word on R59's list falls through the decoder, and its meaning is the one response. -/
theorem illegalWordsAreAnsweredAndIgnored : Obligations.IllegalWordsAreAnsweredAndIgnored := by
  intro w s hl hw
  have hdec := decode_of_illegalWord hw
  refine ⟨hdec, exec_illegal_of hl, ?_⟩
  rw [step_present, hdec]
  exact exec_illegal_of hl

/-- In a legal state the command at the head of the port gets one response and leaves a legal state,
both independent of what the host presents after it. -/
theorem exists_answer_of_legal (w : CmdWord) {s : State} (hl : s.Legal) :
    ∃ (u : State) (r : RspWord), u.Legal ∧ u.inputs = s.inputs ∧ u.rsps = s.rsps ++ [r] ∧
      ∀ rest, step { s with inputs := .command w :: rest } = .next { u with inputs := rest } := by
  obtain ⟨u, hu⟩ := exec_answers_of_legal (decode w) hl
  obtain ⟨⟨r, hr⟩, -, hinputs⟩ := exec_answers hu
  exact ⟨u, r, exec_keeps_legal hu, hinputs, hr,
    fun rest => (step_of_command rfl).trans (exec_with_inputs hu rest)⟩

/-- Settles O13, by induction on the words: the first is answered by the first step, which leaves a
legal state for the run of the others. -/
theorem everyCommandIsAnsweredOnceInOrder : Obligations.EveryCommandIsAnsweredOnceInOrder := by
  intro ws
  induction ws with
  | nil =>
    intro s hl hin
    refine ⟨[], rfl, fun k hk => ?_⟩
    obtain rfl : k = 0 := Nat.le_zero.1 hk
    exact ⟨_, rfl, hl, rfl, (List.append_nil _).symm⟩
  | cons w ws ih =>
    intro s hl hin
    obtain ⟨u, r, hlu, huin, hr, hstep⟩ := exists_answer_of_legal w hl
    obtain ⟨rs, hlen, hrun⟩ := ih u hlu (huin.trans hin)
    refine ⟨r :: rs, congrArg Nat.succ hlen, fun k hk => ?_⟩
    cases k with
    | zero => exact ⟨_, rfl, hl, rfl, (List.append_nil _).symm⟩
    | succ k =>
      obtain ⟨t, ht, hlt, htin, hrs⟩ := hrun k (Nat.le_of_succ_le_succ hk)
      refine ⟨t, (run_succ (hstep _)).trans ht, hlt, htin, ?_⟩
      rw [hrs, hr, List.append_assoc]
      rfl

/-! The form of every response (R54), and the statuses of each command (R55). -/

theorem rspProduced_rspWord {st : BitVec 4} {n : BitVec 2} (d : BitVec 64) (hst : st.toNat ≤ 4)
    (hn : n.toNat ≤ 2) : rspProduced (rspWord st n d) :=
  ⟨by rwa [rspStatus_rspWord], by rwa [rspN_rspWord], rspZero_rspWord st n d⟩

/-- `DEC.END` answers with one of four statuses and no item (R84). -/
theorem endResponse_cases {s : State} (h : s.Legal) : ∃ st d, s.endResponse = rspWord st 0 d ∧
    (st = 0 ∨ st = 1 ∨ st = 2 ∨ st = 3) := by
  unfold State.endResponse
  split_ifs with hfailed
  · refine ⟨_, _, rfl, ?_⟩
    rcases failed_err h.2.2 hfailed with e | e <;> rw [e] <;> decide
  all_goals exact ⟨_, _, rfl, by decide⟩

/-- Every command's response is a response word with at most two items. -/
theorem exec_response_form {i : Instr} {s t : State} (h : exec i s = .next t) :
    ∃ st n d, t.rsps = s.rsps ++ [rspWord st n d] ∧ n.toNat ≤ 2 := by
  cases i with
  | encPush b =>
    obtain ⟨-, acc, cnt, r, rfl, -, -, rfl | ⟨g, rfl⟩⟩ := encPush_next h <;>
      exact ⟨_, _, _, rfl, by decide⟩
  | encEnd =>
    obtain ⟨-, r, rfl, rfl | ⟨c, -, rfl⟩⟩ := encEnd_next h <;> exact ⟨_, _, _, rfl, by decide⟩
  | decPush tok =>
    obtain ⟨-, ⟨-, rfl⟩ | ⟨-, rfl⟩ | ⟨-, -, rfl⟩ | ⟨-, -, rfl⟩ | ⟨-, -, n, d, rfl, hn⟩ |
      ⟨-, -, acc, cnt, n, d, rfl, -, -, -, hn⟩⟩ := decPush_next h
    · exact ⟨_, _, _, rfl, by decide⟩
    · exact ⟨_, _, _, rfl, by decide⟩
    · exact ⟨_, _, _, rfl, by decide⟩
    · exact ⟨_, _, _, rfl, by decide⟩
    · exact ⟨_, _, _, rfl, hn⟩
    · exact ⟨_, _, _, rfl, hn⟩
  | decEnd =>
    obtain ⟨hl, rfl⟩ := decEnd_next h
    obtain ⟨st, d, hend, -⟩ := endResponse_cases hl
    exact ⟨st, 0, d, by rw [← hend], by decide⟩
  | ridxLookup _ | rd _ | illegal _ =>
    obtain ⟨-, st, n, d, rfl, hn, -⟩ := quiet_next rfl rfl h
    exact ⟨st, n, d, rfl, hn⟩

/-- The form of a response follows from what its status can be. -/
theorem exec_response_produced {i : Instr} {s t : State} {P : BitVec 4 → Prop}
    (h : exec i s = .next t) (hstatus : ∃ r, t.rsps = s.rsps ++ [r] ∧ P (rspStatus r))
    (hP : ∀ st, P st → st.toNat ≤ 4) :
    ∃ r, t.rsps = s.rsps ++ [r] ∧ rspProduced r ∧ P (rspStatus r) := by
  obtain ⟨r, hr, hst⟩ := hstatus
  obtain ⟨st, n, d, hform, hn⟩ := exec_response_form h
  obtain rfl := response_unique hr hform
  refine ⟨_, hr, rspProduced_rspWord d (hP st ?_) hn, hst⟩
  rwa [rspStatus_rspWord] at hst

theorem decPush_status {tok : Token} {s t : State} (h : exec (.decPush tok) s = .next t) :
    ∃ r, t.rsps = s.rsps ++ [r] ∧ (rspStatus r = 0 ∨ rspStatus r = 1 ∨ rspStatus r = 2) := by
  obtain ⟨r, hr, hst⟩ := decPush_answer h
  exact ⟨r, hr, hst.imp And.left And.left⟩

theorem decEnd_status {s t : State} (h : exec .decEnd s = .next t) :
    ∃ r, t.rsps = s.rsps ++ [r] ∧
      (rspStatus r = 0 ∨ rspStatus r = 1 ∨ rspStatus r = 2 ∨ rspStatus r = 3) := by
  obtain ⟨hl, rfl⟩ := decEnd_next h
  obtain ⟨st, d, hend, hst⟩ := endResponse_cases hl
  exact ⟨_, rfl, by rwa [hend, rspStatus_rspWord]⟩

theorem ridxLookup_status {tok : Token} {s t : State} (h : exec (.ridxLookup tok) s = .next t) :
    ∃ r, t.rsps = s.rsps ++ [r] ∧ (rspStatus r = 0 ∨ rspStatus r = 1) := by
  obtain ⟨-, st, n, d, rfl, -, hst⟩ := quiet_next rfl rfl h
  exact ⟨_, rfl, by rwa [rspStatus_rspWord]⟩

theorem rd_status {r : Reg} {s t : State} (h : exec (.rd r) s = .next t) :
    ∃ r, t.rsps = s.rsps ++ [r] ∧ rspStatus r = 0 := by
  obtain ⟨-, st, n, d, rfl, -, hst⟩ := quiet_next rfl rfl h
  exact ⟨_, rfl, by rwa [rspStatus_rspWord]⟩

theorem illegal_status {w : CmdWord} {s t : State} (h : exec (.illegal w) s = .next t) :
    ∃ r, t.rsps = s.rsps ++ [r] ∧ rspStatus r = 4 := by
  obtain ⟨-, st, n, d, rfl, -, hst, -⟩ := quiet_next rfl rfl h
  exact ⟨_, rfl, by rwa [rspStatus_rspWord]⟩

/-- Settles O17: the statuses of each command, none above 4, and the form that every response has. -/
theorem statusOfEachCommand : Obligations.StatusOfEachCommand := by
  intro i s t h
  cases i with
  | encPush _ | encEnd =>
    exact exec_response_produced (P := (· = 0)) h (encCmd_answers_ok rfl h) (by decide)
  | decPush _ =>
    exact exec_response_produced (P := fun st => st = 0 ∨ st = 1 ∨ st = 2) h (decPush_status h)
      (by decide)
  | decEnd =>
    exact exec_response_produced (P := fun st => st = 0 ∨ st = 1 ∨ st = 2 ∨ st = 3) h
      (decEnd_status h) (by decide)
  | ridxLookup _ =>
    exact exec_response_produced (P := fun st => st = 0 ∨ st = 1) h (ridxLookup_status h) (by decide)
  | rd _ => exact exec_response_produced (P := (· = 0)) h (rd_status h) (by decide)
  | illegal _ => exact exec_response_produced (P := (· = 4)) h (illegal_status h) (by decide)

end Sys2Proof.Machine

/-! ### The bit packer and its tail (R66 to R72) -/

namespace Sys2Proof.Machine

/-- What an encode command leaves: the accumulator, the count, and the responses it appends. -/
def State.packed (acc : Acc) (cnt : Cnt) (rs : List RspWord) (s : State) : State :=
  { s with eacc := acc, ecnt := cnt, rsps := s.rsps ++ rs }

@[simp] theorem packed_table (acc : Acc) (cnt : Cnt) (rs : List RspWord) (s : State) :
    (s.packed acc cnt rs).table = s.table := rfl

@[simp] theorem packed_rsps (acc : Acc) (cnt : Cnt) (rs : List RspWord) (s : State) :
    (s.packed acc cnt rs).rsps = s.rsps ++ rs := rfl

@[simp] theorem packed_packed (acc acc' : Acc) (cnt cnt' : Cnt) (rs rs' : List RspWord)
    (s : State) : (s.packed acc cnt rs).packed acc' cnt' rs' = s.packed acc' cnt' (rs ++ rs') := by
  simp [State.packed]

/-- An idle encode context that is left idle: nothing but the responses has changed. -/
theorem packed_of_idle {s : State} (h : s.EncIdle) (rs : List RspWord) :
    s.packed 0 0 rs = { s with rsps := s.rsps ++ rs } := by
  obtain ⟨hacc, hcnt⟩ := h
  rw [State.packed, ← hacc, ← hcnt]

/-! `ENC.PUSH` with the group and the bits that stay as concatenations of register bits (R66). -/

/-- The emitting arm of `ENC.PUSH` with `k` bits to stay: they are the byte's low bits, and the group is
the bits held followed by the byte's other bits. -/
theorem exec_encPush_group {b : Byte} {s : State} (hl : s.Legal) {k : Nat} (hk : k ≤ 6)
    (hcnt : s.ecnt = BitVec.ofNat 5 (k + 2)) {g : BitVec 10}
    (hg : g.toNat = (s.eacc.extractLsb' 0 (k + 2) ++ b.extractLsb' k (8 - k)).toNat) :
    exec (.encPush b) s = .next (s.packed ((b.extractLsb' 0 k).setWidth 16) (BitVec.ofNat 5 k)
      [rspWord 0 1 (fwd s.table (.regular g))]) := by
  have hb := b.isLt
  rw [toNat_append', BitVec.extractLsb'_toNat, BitVec.extractLsb'_toNat,
    Nat.shiftRight_eq_div_pow, Nat.shiftRight_eq_div_pow] at hg
  refine exec_encPush_emits hl (k := k) ?_ ?_ ?_ ?_
  · rw [hcnt, BitVec.toNat_ofNat, Nat.mod_eq_of_lt (by omega)]
  · rw [BitVec.toNat_setWidth, BitVec.extractLsb'_toNat, Nat.shiftRight_zero]
    interval_cases k <;> omega
  · rw [BitVec.toNat_ofNat, Nat.mod_eq_of_lt (by omega)]
  · rw [hg]
    interval_cases k <;> omega

/-- An empty accumulator holds no bit (R20). -/
theorem eacc_of_ecnt_zero {s : State} (hl : s.Legal) (hcnt : s.ecnt = 0) : s.eacc = 0 := by
  obtain ⟨⟨-, -, hlt⟩, -⟩ := hl
  rw [hcnt] at hlt
  exact BitVec.eq_of_toNat_eq (Nat.lt_one_iff.1 hlt)

/-- `ENC.PUSH` into an empty accumulator only loads the byte. -/
theorem exec_encPush_loads {b : Byte} {s : State} (hl : s.Legal) (hcnt : s.ecnt = 0) :
    exec (.encPush b) s = .next (s.packed (b.setWidth 16) 8 [rspWord 0 0 0]) := by
  have hload : BitVec.ofNat 16 (shiftIn s.eacc.toNat 8 b.toNat) = b.setWidth 16 := by
    rw [eacc_of_ecnt_zero hl hcnt, shiftIn_eq _ b.isLt]
    simp
  rw [exec_encPush_of hl, hcnt, if_neg (by decide), hload]
  rfl

/-- `ENC.PUSH` with two bits held leaves nothing. -/
theorem exec_encPush_empties {b : Byte} {s : State} (hl : s.Legal) (hcnt : s.ecnt = 2)
    {g : BitVec 10} (hg : g.toNat = (s.eacc.extractLsb' 0 2 ++ b).toNat) :
    exec (.encPush b) s = .next (s.packed 0 0 [rspWord 0 1 (fwd s.table (.regular g))]) := by
  have hbyte : b.extractLsb' 0 8 = b := BitVec.extractLsb'_eq_self
  have hnil : (b.extractLsb' 0 0).setWidth 16 = 0 := by simp
  have h := exec_encPush_group hl (k := 0) (by decide) hcnt (g := g) (by rw [hbyte]; exact hg)
  rwa [hnil] at h

/-- Settles O18: the empty accumulator loads, the other four counts emit with 0, 2, 4 and 6 bits to
stay, and the word is that of `ENC.PUSH`. -/
theorem encPushResult : Obligations.EncPushResult := by
  intro b s hl
  exact ⟨decode_encode (i := .encPush b) rfl, exec_encPush_loads hl,
    fun h => exec_encPush_empties hl h rfl,
    fun h => exec_encPush_group hl (k := 2) (by decide) h rfl,
    fun h => exec_encPush_group hl (k := 4) (by decide) h rfl,
    fun h => exec_encPush_group hl (k := 6) (by decide) h rfl⟩

/-! `ENC.END` for each class of the tail (R69, R70). -/

theorem tailCode_cls_idx {c : SymCode} (hpad : isPad c = true) :
    tailCode (clsWidth (codeCls c)) (codeIdx c).toNat = some c := by
  cases c with
  | regular _ => cases hpad
  | pad1 _ | pad2 _ | pad3 _ | pad4 _ => exact codeOf_cls_idx _

/-- The tail symbol is the padding code whose width is the count and whose index is the bits held. -/
theorem encEndResponse_of_pad {s : State} {c : SymCode} (hpad : isPad c = true)
    (hcnt : s.ecnt.toNat = clsWidth (codeCls c)) (hacc : s.eacc.toNat = (codeIdx c).toNat) :
    s.encEndResponse = rspWord 0 1 (fwd s.table c) := by
  rw [State.encEndResponse, hcnt, hacc, field_low_of_lt (codeIdx_lt c), tailCode_cls_idx hpad]

theorem encEndResponse_of_ecnt_zero {s : State} (hcnt : s.ecnt.toNat = 0) :
    s.encEndResponse = rspWord 0 0 0 := by
  rw [State.encEndResponse, hcnt]
  rfl

theorem exec_encEnd_answers {s : State} {r : RspWord} (hl : s.Legal) (hr : s.encEndResponse = r) :
    exec .encEnd s = .next (s.packed 0 0 [r]) := by
  rw [exec_encEnd_of hl, hr]
  rfl

/-- The bits held, as a field of the accumulator. -/
theorem toNat_extractLsb'_of_ecnt {s : State} (hl : s.Legal) {w : Nat} (hcnt : s.ecnt.toNat = w) :
    (s.eacc.extractLsb' 0 w).toNat = s.eacc.toNat := by
  obtain ⟨⟨-, -, hlt⟩, -⟩ := hl
  rw [BitVec.extractLsb'_toNat, Nat.shiftRight_zero, Nat.mod_eq_of_lt (hcnt ▸ hlt)]

/-- `ENC.END` with bits held answers with the padding code whose index is that field. -/
theorem exec_encEnd_of_pad {s : State} (hl : s.Legal) {c : SymCode} (hpad : isPad c = true)
    (hcnt : s.ecnt.toNat = clsWidth (codeCls c))
    (hidx : (codeIdx c).toNat = (s.eacc.extractLsb' 0 (clsWidth (codeCls c))).toNat) :
    exec .encEnd s = .next (s.packed 0 0 [rspWord 0 1 (fwd s.table c)]) := by
  rw [toNat_extractLsb'_of_ecnt hl hcnt] at hidx
  exact exec_encEnd_answers hl (encEndResponse_of_pad hpad hcnt hidx.symm)

/-- Settles O20: nothing for an empty accumulator, else the padding code of the count's width. -/
theorem encEndResult : Obligations.EncEndResult := by
  intro s hl
  exact ⟨decode_encode (i := .encEnd) rfl,
    fun h => exec_encEnd_answers hl (encEndResponse_of_ecnt_zero (congrArg BitVec.toNat h)),
    fun h => exec_encEnd_of_pad hl (c := .pad1 _) rfl (congrArg BitVec.toNat h)
      (BitVec.toNat_setWidth_of_le (by decide)),
    fun h => exec_encEnd_of_pad hl (c := .pad2 _) rfl (congrArg BitVec.toNat h)
      (BitVec.toNat_setWidth_of_le (by decide)),
    fun h => exec_encEnd_of_pad hl (c := .pad3 _) rfl (congrArg BitVec.toNat h)
      (BitVec.toNat_setWidth_of_le (by decide)),
    fun h => exec_encEnd_of_pad hl (c := .pad4 _) rfl (congrArg BitVec.toNat h)
      (BitVec.toNat_setWidth_of_le (by decide))⟩

/-- Settles O21: what the two commands can do, in a state where they are answered. -/
theorem encoderNeverFails : Obligations.EncoderNeverFails := by
  intro s hl
  refine ⟨fun b => ?_, ?_⟩
  · obtain ⟨t, ht⟩ := exec_answers_of_legal (.encPush b) hl
    obtain ⟨-, acc, cnt, r, rfl, -, -, rfl | ⟨g, rfl⟩⟩ := encPush_next ht
    · exact ⟨_, ht, .inl rfl⟩
    · exact ⟨_, ht, .inr ⟨g, rfl⟩⟩
  · obtain ⟨t, ht⟩ := exec_answers_of_legal .encEnd hl
    obtain ⟨-, r, rfl, rfl | ⟨c, hpad, rfl⟩⟩ := encEnd_next ht
    · exact ⟨_, ht, .inl rfl⟩
    · exact ⟨_, ht, .inr ⟨c, hpad, rfl⟩⟩

/-! Runs of `ENC.PUSH`: the groups and the tail of the stream (R67, R70). -/

/-- A run of presented commands takes a leading `ENC.PUSH` as its meaning. -/
theorem run_encPush {b : Byte} {s t : State} {k : Nat} {is : List Instr}
    (h : exec (.encPush b) s = .next t) :
    core.run (k + 1) (s.presentAll (.encPush b :: is)) = core.run k (t.presentAll is) :=
  run_presentAll (decode_encode rfl) h

/-- The four groups of 40 bits, each cut across two neighbouring bytes: the bits that the accumulator
holds of the one, then the high bits of the other. -/
theorem groups_of_five_bytes (b0 b1 b2 b3 b4 : Byte) :
    let n : BitVec 40 := b0 ++ (b1 ++ (b2 ++ (b3 ++ b4)))
    n.extractLsb' 30 10 = (b0.setWidth 16).extractLsb' 0 8 ++ b1.extractLsb' 6 2 ∧
    n.extractLsb' 20 10 =
      ((b1.extractLsb' 0 6).setWidth 16).extractLsb' 0 6 ++ b2.extractLsb' 4 4 ∧
    n.extractLsb' 10 10 =
      ((b2.extractLsb' 0 4).setWidth 16).extractLsb' 0 4 ++ b3.extractLsb' 2 6 ∧
    n.extractLsb' 0 10 = ((b3.extractLsb' 0 2).setWidth 16).extractLsb' 0 2 ++ b4 := by
  intro n
  have hn : n.toNat = b0.toNat * 2 ^ 32 + b1.toNat * 2 ^ 24 + b2.toNat * 2 ^ 16 +
      b3.toNat * 2 ^ 8 + b4.toNat := by
    refine (toNat_append' b0 (b1 ++ (b2 ++ (b3 ++ b4)) : BitVec 32)).trans ?_
    rw [toNat_append' b1 (b2 ++ (b3 ++ b4) : BitVec 24), toNat_append' b2 (b3 ++ b4 : BitVec 16),
      toNat_append' b3 b4]
    omega
  have h1 := b1.isLt
  have h2 := b2.isLt
  have h3 := b3.isLt
  have h4 := b4.isLt
  refine ⟨?_, ?_, ?_, ?_⟩ <;>
    apply BitVec.eq_of_toNat_eq <;>
    simp only [toNat_append', BitVec.extractLsb'_toNat, BitVec.toNat_setWidth,
      Nat.shiftRight_eq_div_pow, hn] <;>
    omega

/-- Settles O19: the five commands one by one, with the groups as the accumulator and the byte make
them. -/
theorem fivePushesEmitFourGroups : Obligations.FivePushesEmitFourGroups := by
  intro b0 b1 b2 b3 b4 s hl hcnt n run sym
  obtain ⟨g30, g20, g10, g0⟩ := groups_of_five_bytes b0 b1 b2 b3 b4
  have push0 := exec_encPush_loads (b := b0) hl hcnt
  have push1 := exec_encPush_group (b := b1) (exec_keeps_legal push0) (k := 6) (by decide) rfl
    (congrArg BitVec.toNat g30)
  have push2 := exec_encPush_group (b := b2) (exec_keeps_legal push1) (k := 4) (by decide) rfl
    (congrArg BitVec.toNat g20)
  have push3 := exec_encPush_group (b := b3) (exec_keeps_legal push2) (k := 2) (by decide) rfl
    (congrArg BitVec.toNat g10)
  have push4 := exec_encPush_empties (b := b4) (exec_keeps_legal push3) rfl
    (congrArg BitVec.toNat g0)
  have run1 := fun k => run_encPush (k := k)
    (is := [.encPush b1, .encPush b2, .encPush b3, .encPush b4]) push0
  have run2 := fun k => (run1 (k + 1)).trans (run_encPush push1)
  have run3 := fun k => (run2 (k + 1)).trans (run_encPush push2)
  have run4 := fun k => (run3 (k + 1)).trans (run_encPush push3)
  have run5 := (run4 1).trans (run_encPush push4)
  have hidle : s.EncIdle := ⟨eacc_of_ecnt_zero hl hcnt, hcnt⟩
  refine ⟨⟨_, run1 0, rfl, rfl⟩, ⟨_, run2 0, rfl, ?_⟩, ⟨_, run3 0, rfl, ?_⟩, ⟨_, run4 0, rfl, ?_⟩,
    run5.trans (congrArg Host.Outcome.next (Eq.trans ?_ (packed_of_idle hidle _)))⟩
  · simp [sym, n]
  · simp [sym, n]
  · simp [sym, n]
  · simp only [packed_packed, packed_table]
    rfl

/-! The bits held along a stream (R70). -/

/-- The encode context of a stream whose bytes so far are `bs`: it holds the tail, the last
`8 * bs.length mod 10` bits. -/
def State.HoldsTail (bs : List Byte) (s : State) : Prop :=
  s.ecnt.toNat = 8 * bs.length % 10 ∧ s.eacc.toNat = streamNumber bs % 2 ^ (8 * bs.length % 10)

theorem holdsTail_of_idle {s : State} (h : s.EncIdle) : s.HoldsTail [] := by
  obtain ⟨hacc, hcnt⟩ := h
  exact ⟨congrArg BitVec.toNat hcnt, congrArg BitVec.toNat hacc⟩

theorem streamNumber_concat (bs : List Byte) (b : Byte) :
    streamNumber (bs ++ [b]) = streamNumber bs * 2 ^ 8 + b.toNat := by
  rw [streamNumber, List.foldl_append]
  exact shiftIn_eq _ b.isLt

/-- What `ENC.PUSH` leaves of the bits held and the byte: the low bits, as many as the new count. -/
theorem encPush_packs {b : Byte} {s t : State} (h : exec (.encPush b) s = .next t) :
    t.ecnt.toNat = (s.ecnt.toNat + 8) % 10 ∧
      t.eacc.toNat = (s.eacc.toNat * 2 ^ 8 + b.toNat) % 2 ^ ((s.ecnt.toNat + 8) % 10) := by
  have hl := legal_of_exec_next h
  obtain ⟨heven, hle, -⟩ := hl.1
  have hb := b.isLt
  by_cases hc : s.ecnt = 0
  · rw [exec_encPush_loads hl hc] at h
    cases h
    rw [hc, eacc_of_ecnt_zero hl hc]
    refine ⟨rfl, ?_⟩
    change (b.setWidth 16).toNat = (0 * 2 ^ 8 + b.toNat) % 2 ^ 8
    rw [BitVec.toNat_setWidth]
    omega
  · have hne : s.ecnt.toNat ≠ 0 := fun e => hc (BitVec.eq_of_toNat_eq e)
    have hw : s.ecnt.toNat + 8 - 10 = (s.ecnt.toNat + 8) % 10 := by omega
    rw [exec_encPush_of hl, if_pos (by omega), shiftIn_eq _ hb, hw, field_eq _ 0, Nat.pow_zero,
      Nat.div_one] at h
    cases h
    have hlt : ∀ m, m % 2 ^ ((s.ecnt.toNat + 8) % 10) < 2 ^ 16 := fun m =>
      (Nat.mod_lt m (Nat.two_pow_pos _)).trans_le (Nat.pow_le_pow_right (by decide) (by omega))
    exact ⟨by rw [BitVec.toNat_ofNat, Nat.mod_eq_of_lt (by omega)],
      by rw [BitVec.toNat_ofNat, Nat.mod_eq_of_lt (hlt _)]⟩

theorem mod_two_pow_shift {w v : Nat} (h : v ≤ w + 8) (m b : Nat) :
    (m % 2 ^ w * 2 ^ 8 + b) % 2 ^ v = (m * 2 ^ 8 + b) % 2 ^ v := by
  have hmod : m % 2 ^ w * 2 ^ 8 = m * 2 ^ 8 % 2 ^ (w + 8) := by
    rw [Nat.pow_add, Nat.mul_mod_mul_right]
  rw [hmod]
  exact ((Nat.mod_modEq _ _).of_dvd (pow_dvd_pow 2 h)).add_right b

theorem State.HoldsTail.encPush {bs : List Byte} {b : Byte} {s t : State} (hs : s.HoldsTail bs)
    (h : exec (.encPush b) s = .next t) : t.HoldsTail (bs ++ [b]) := by
  obtain ⟨hcnt, hacc⟩ := hs
  obtain ⟨hcnt', hacc'⟩ := encPush_packs h
  have hw : (8 * bs.length % 10 + 8) % 10 = 8 * (bs ++ [b]).length % 10 := by
    rw [List.length_append, List.length_singleton]
    omega
  rw [hcnt, hw] at hcnt' hacc'
  refine ⟨hcnt', ?_⟩
  rw [hacc', hacc, streamNumber_concat, mod_two_pow_shift (by omega)]

/-- A run of pushes, by induction on the bytes: each one extends the stream whose tail is held. -/
theorem run_encPushes (bs : List Byte) {pre : List Byte} {s : State} (hl : s.Legal)
    (hs : s.HoldsTail pre) : ∃ t : State,
      core.run bs.length (s.presentAll (bs.map .encPush)) = .next t ∧ t.Legal ∧
      t.table = s.table ∧ t.HoldsTail (pre ++ bs) := by
  induction bs generalizing pre s with
  | nil => exact ⟨s, rfl, hl, rfl, by rwa [List.append_nil]⟩
  | cons b bs ih =>
    obtain ⟨u, hu⟩ := exec_answers_of_legal (.encPush b) hl
    obtain ⟨-, htable, -⟩ := exec_answers hu
    obtain ⟨t, ht, hlt, htable', htail⟩ := ih (exec_keeps_legal hu) (hs.encPush hu)
    refine ⟨t, (run_encPush hu).trans ht, hlt, htable'.trans htable, ?_⟩
    rwa [List.append_assoc] at htail

/-- The last byte holds the eight lowest bits of the stream number. -/
theorem getLast?_eq_of_streamNumber {bs : List Byte} (h : bs ≠ []) :
    bs.getLast? = some (BitVec.ofNat 8 (streamNumber bs % 2 ^ 8)) := by
  obtain ⟨l, b, rfl⟩ := List.eq_nil_or_concat' bs |>.resolve_left h
  have hb : (streamNumber l * 2 ^ 8 + b.toNat) % 2 ^ 8 = b.toNat := by
    have := b.isLt
    omega
  rw [List.getLast?_concat, streamNumber_concat, hb, BitVec.ofNat_toNat, BitVec.setWidth_eq]

/-- An index of its class's width, in the 10-bit field of R13. -/
theorem toNat_setWidth_ofNat {w r : Nat} (hw : w ≤ 10) (hr : r < 2 ^ w) :
    ((BitVec.ofNat w r).setWidth 10).toNat = r := by
  rw [BitVec.toNat_setWidth_of_le hw, BitVec.toNat_ofNat, Nat.mod_eq_of_lt hr]

/-- Settles O22: the pushes leave the tail in the accumulator, and `ENC.END` answers with the padding
code of the tail's width whose index is the tail. -/
theorem tailClassIsFixedByTheLength : Obligations.TailClassIsFixedByTheLength := by
  intro bs s hl hidle n r
  obtain ⟨t, ht, hlt, htable, hcnt, hacc⟩ := run_encPushes bs hl (holdsTail_of_idle hidle)
  rw [List.nil_append] at hcnt hacc
  have hr : r < 2 ^ (8 * n % 10) := Nat.mod_lt _ (Nat.two_pow_pos _)
  have htail : ∀ c : SymCode, isPad c = true → clsWidth (codeCls c) = 8 * n % 10 →
      (codeIdx c).toNat = r →
      t.rsps ++ [t.encEndResponse] = t.rsps ++ [rspWord 0 1 (fwd s.table c)] := by
    intro c hpad hwidth hidx
    rw [encEndResponse_of_pad hpad (hcnt.trans hwidth.symm) (hacc.trans hidx.symm), htable]
  refine ⟨t, _, ht, hcnt, exec_encEnd_answers hlt rfl, ?_, ?_, ?_, ?_, ?_⟩
  · intro hn
    rw [packed_rsps, encEndResponse_of_ecnt_zero (by omega)]
  · intro hn
    have hw : 8 * n % 10 = 2 := by omega
    exact htail (.pad1 _) rfl hw.symm (toNat_setWidth_ofNat (by decide) (hw ▸ hr))
  · intro hn
    have hw : 8 * n % 10 = 4 := by omega
    exact htail (.pad2 _) rfl hw.symm (toNat_setWidth_ofNat (by decide) (hw ▸ hr))
  · intro hn
    have hw : 8 * n % 10 = 6 := by omega
    exact htail (.pad3 _) rfl hw.symm (toNat_setWidth_ofNat (by decide) (hw ▸ hr))
  · intro hn
    have hw : 8 * n % 10 = 8 := by omega
    have hne : bs ≠ [] := by
      rintro rfl
      exact absurd hn (by decide)
    refine ⟨htail (.pad4 _) rfl hw.symm (toNat_setWidth_ofNat (by decide) (hw ▸ hr)), ?_⟩
    simp only [getLast?_eq_of_streamNumber hne, r, hw]

end Sys2Proof.Machine

/-! ### The answer of the reverse index (R74) -/

namespace Sys2Proof.Machine

theorem exec_ridxLookup_of {s : State} (h : s.Legal) (tok : Token) :
    exec (.ridxLookup tok) s = .next (s.answerLookup (rev s.table tok)) :=
  whenLegal_of_legal h

/-- `SC = {cls, idx}` as a number: the class above the ten bits of the index (R13). -/
theorem codeBits_toNat (c : SymCode) :
    (codeBits c).toNat = 1024 * (clsCode (codeCls c)).toNat + (codeIdx c).toNat := by
  rw [codeBits, toNat_append']
  omega

/-- `DATA` of a hit, R74's `zext_64({cls, idx})`. -/
theorem codeBits_setWidth (c : SymCode) : (codeBits c).setWidth 64 =
    BitVec.ofNat 64 (1024 * (clsCode (codeCls c)).toNat + (codeIdx c).toNat) := by
  rw [← codeBits_toNat, BitVec.ofNat_toNat]

/-- Settles O24: a code's token reads back as the code and a token of no code as a miss, and the answer
to either is one response. -/
theorem lookupResult : Obligations.LookupResult := by
  intro tok s hl
  refine ⟨decode_encode (i := .ridxLookup tok) rfl, fun c hc => ?_, fun hmiss => ?_⟩
  · rw [exec_ridxLookup_of hl, rev_eq_some_iff.2 hc, ← codeBits_setWidth]
    rfl
  · rw [exec_ridxLookup_of hl, rev_eq_none_iff.2 hmiss]
    rfl

end Sys2Proof.Machine

/-! ### The bit unpacker (R79 to R84) -/

namespace Sys2Proof.Machine

/-! `DEC.PUSH` of a code of the table in `RUN` (R79, R80). -/

/-- `DEC.PUSH` of a code's token in `RUN` takes the arm of the code. -/
theorem exec_decPush_of_code {tok : Token} {c : SymCode} {s : State} (hl : s.Legal)
    (hp : s.phase = phaseRun) (hc : fwd s.table c = tok) :
    exec (.decPush tok) s = .next (s.pushLooked (some c)) := by
  rw [exec_decPush_run hl hp, rev_eq_some_iff.2 hc]

theorem dacc_lt_of_dcnt {s : State} (hl : s.Legal) {k : Nat} (hk : s.dcnt.toNat = k) :
    s.dacc.toNat < 2 ^ k := by
  obtain ⟨-, ⟨-, -, hlt, -⟩, -⟩ := hl
  exact hk ▸ hlt

/-- The `Regular` arm with `k` bits held and fewer than two bytes complete: the byte is the bits held
followed by the symbol's high bits, and the symbol's other bits stay. -/
theorem pushRegular_byte {s : State} {i : BitVec 10} (hl : s.Legal) {k : Nat} (hk : k ≤ 4)
    (hcnt : s.dcnt = BitVec.ofNat 5 k) {b : Byte}
    (hb : b.toNat = (s.dacc.extractLsb' 0 k ++ i.extractLsb' (k + 2) (8 - k)).toNat) :
    s.pushRegular i = { s with
      dacc := (i.extractLsb' 0 (k + 2)).setWidth 16, dcnt := BitVec.ofNat 5 (k + 2)
      dpos := s.dpos + 1, rsps := s.rsps ++ [rspWord 0 1 (b.setWidth 64)] } := by
  have hk' : s.dcnt.toNat = k := by
    rw [hcnt, BitVec.toNat_ofNat, Nat.mod_eq_of_lt (by omega)]
  have hacc := dacc_lt_of_dcnt hl hk'
  have hi := i.isLt
  rw [toNat_append', BitVec.extractLsb'_toNat, BitVec.extractLsb'_toNat,
    Nat.shiftRight_eq_div_pow, Nat.shiftRight_eq_div_pow] at hb
  refine pushRegular_one (congrArg (· + 2) hk') (by omega) ?_ ?_ ?_
  · rw [BitVec.toNat_setWidth, BitVec.extractLsb'_toNat, Nat.shiftRight_zero]
    interval_cases k <;> omega
  · rw [BitVec.toNat_ofNat, Nat.mod_eq_of_lt (by omega)]
  · rw [hb]
    interval_cases k <;> omega

/-- The two-byte arm of R79, with the payload given as the bit vector that has the right number: the
earlier byte, the high one of the sixteen bits, is its low byte. -/
theorem pushRegular_two {s : State} {i : BitVec 10} (hl : s.Legal) (hcnt : s.dcnt = 6)
    {d : BitVec 64}
    (hd : d.toNat = i.toNat % 256 * 256 + (s.dacc.toNat * 4 + i.toNat / 256)) :
    s.pushRegular i = { s with
      dacc := 0, dcnt := 0, dpos := s.dpos + 1, rsps := s.rsps ++ [rspWord 0 2 d] } := by
  have hacc : s.dacc.toNat < 64 := dacc_lt_of_dcnt hl (congrArg BitVec.toNat hcnt)
  have hi := i.isLt
  have hshift := shiftIn_eq s.dacc.toNat hi
  have hhigh : (s.dacc.toNat * 1024 + i.toNat) / 256 = s.dacc.toNat * 4 + i.toNat / 256 := by omega
  have hlow : (s.dacc.toNat * 1024 + i.toNat) % 256 = i.toNat % 256 := by omega
  have hdata : byteData [BitVec.ofNat 8 (field (shiftIn s.dacc.toNat 10 i.toNat) 8 8),
      BitVec.ofNat 8 (field (shiftIn s.dacc.toNat 10 i.toNat) 0 8)] = d := by
    apply BitVec.eq_of_toNat_eq
    rw [byteData_two, hd, hshift, field_eq, field_eq, BitVec.toNat_ofNat, BitVec.toNat_ofNat]
    simp only [Nat.reducePow, Nat.div_one, Nat.mod_mod, hhigh, hlow]
    omega
  rw [← hdata, State.pushRegular, if_pos (by rw [hcnt]; decide)]
  rfl

/-- Settles O26: with 0, 2 and 4 bits held one byte is completed, with 6 two. -/
theorem decPushRegularResult : Obligations.DecPushRegularResult := by
  intro tok i s hl hp htok
  rw [exec_decPush_of_code hl hp htok]
  refine ⟨fun h => congrArg _ (pushRegular_byte hl (k := 0) (by decide) h ?_),
    fun h => congrArg _ (pushRegular_byte hl (k := 2) (by decide) h rfl),
    fun h => congrArg _ (pushRegular_byte hl (k := 4) (by decide) h rfl),
    fun h => congrArg _ (pushRegular_two hl h ?_)⟩
  · rw [toNat_append']
    simp
  · have hacc : s.dacc.toNat < 64 := dacc_lt_of_dcnt hl (congrArg BitVec.toNat h)
    have hhigh : i.toNat / 256 < 4 := by have := i.isLt; omega
    simp only [BitVec.toNat_setWidth, toNat_append', BitVec.extractLsb'_toNat,
      Nat.shiftRight_eq_div_pow]
    simp only [Nat.reduceAdd, Nat.reducePow, Nat.div_one, Nat.mod_eq_of_lt hacc,
      Nat.mod_eq_of_lt hhigh]
    exact Nat.mod_eq_of_lt (by omega)

/-- `DEC.PUSH` of a padding code's token in `RUN`, in arithmetic (R80). -/
theorem exec_decPush_pad {tok : Token} {c : SymCode} {s : State} (hl : s.Legal)
    (hp : s.phase = phaseRun) (hc : fwd s.table c = tok) (hpad : isPad c = true) :
    let w := clsWidth (codeCls c)
    let a := s.dacc.toNat * 2 ^ w + (codeIdx c).toNat
    let n := s.dcnt.toNat + w
    (a % 2 ^ (n % 8) ≠ 0 → exec (.decPush tok) s = .next (s.raise .malformedPadding)) ∧
    (a % 2 ^ (n % 8) = 0 → exec (.decPush tok) s = .next { s with
      dacc := 0, dcnt := 0, dpos := s.dpos + 1, dst := dstOf 0 phasePadded
      rsps := s.rsps ++
        [if 8 ≤ n then rspWord 0 1 (BitVec.ofNat 64 (a / 2 ^ (n % 8))) else rspWord 0 0 0] }) := by
  intro w a n
  obtain ⟨harm, -, hw⟩ := pushLooked_pad (s := s) hpad
  obtain ⟨hleft, hbyte, hnone⟩ := pushPad_cases (codeIdx_lt c) hw hl
  rw [run_err hl hp] at hbyte hnone
  rw [exec_decPush_of_code hl hp hc, harm]
  refine ⟨fun h => congrArg _ (hleft h), fun h => congrArg _ ?_⟩
  split_ifs with h8
  · exact hbyte h h8
  · exact hnone h (not_le.1 h8)

/-- Settles O27: the width of a padding class is twice its code, and its byte is there when the bits
reach eight. -/
theorem decPushPaddingResult : Obligations.DecPushPaddingResult := by
  intro tok c s hl hp hc hpad
  obtain ⟨-, hw, -⟩ := pushLooked_pad (s := s) hpad
  obtain ⟨hleft, hzero⟩ := exec_decPush_pad hl hp hc hpad
  rw [hw] at hleft hzero
  refine ⟨hleft, fun h h8 => ?_, fun h h8 => ?_⟩
  · rw [if_pos h8] at hzero
    exact hzero h
  · rw [if_neg (not_le.2 h8)] at hzero
    exact hzero h

/-! `DEC.PUSH` of an unknown token, and after padding or a failure (R81 to R83). -/

theorem exec_decPush_unknown {tok : Token} {s : State} (hl : s.Legal) (hp : s.phase = phaseRun)
    (hmiss : ∀ c, fwd s.table c ≠ tok) :
    exec (.decPush tok) s = .next (s.raise .unknownSymbol) := by
  rw [exec_decPush_run hl hp, rev_eq_none_iff.2 hmiss]
  rfl

/-- Settles O28: a miss raises `UnknownSymbol`, which writes `DST` and `DEPOS` and answers `DPOS`. -/
theorem decPushUnknownResult : Obligations.DecPushUnknownResult :=
  fun _ _ hl hp hmiss => exec_decPush_unknown hl hp hmiss

/-- Settles O29: in `PADDED` any token raises `MalformedPadding`. -/
theorem decPushAfterPaddingResult : Obligations.DecPushAfterPaddingResult :=
  fun _ _ hl hp => exec_decPush_padded hl hp

/-- Settles O30: in `FAILED` any token repeats the recorded error. -/
theorem decPushAfterFailureResult : Obligations.DecPushAfterFailureResult :=
  fun _ _ hl hp => exec_decPush_failed hl hp

/-! The four arms of `DEC.END` (R84). -/

theorem exec_decEnd_of {s : State} (hl : s.Legal) :
    exec .decEnd s = .next { s.clearDec with rsps := s.rsps ++ [s.endResponse] } :=
  whenLegal_of_legal hl

theorem endResponse_failed {s : State} (hp : s.phase = phaseFailed) :
    s.endResponse = rspWord (s.err.setWidth 4) 0 (s.depos.setWidth 64) := if_pos hp

theorem endResponse_padded {s : State} (hp : s.phase = phasePadded) :
    s.endResponse = rspWord 0 0 0 := by
  rw [State.endResponse, if_neg (by rw [hp]; decide), if_pos hp]
  rfl

theorem endResponse_truncated {s : State} (hp : s.phase = phaseRun) (hcnt : s.dcnt ≠ 0) :
    s.endResponse = rspWord 3 0 (s.dpos.setWidth 64) := by
  rw [State.endResponse, if_neg (by rw [hp]; decide), if_neg (by rw [hp]; decide), if_pos hcnt]
  rfl

theorem endResponse_aligned {s : State} (hp : s.phase = phaseRun) (hcnt : s.dcnt = 0) :
    s.endResponse = rspWord 0 0 0 := by
  rw [State.endResponse, if_neg (by rw [hp]; decide), if_neg (by rw [hp]; decide),
    if_neg (not_not.2 hcnt)]
  rfl

/-- Settles O31: the context is cleared in every arm, and the response is the arm's. -/
theorem decEndResult : Obligations.DecEndResult := by
  intro s hl done
  have hend : ∀ r, s.endResponse = r → exec .decEnd s = done r := by
    rintro r rfl
    exact exec_decEnd_of hl
  exact ⟨decode_encode (i := .decEnd) rfl,
    fun hp => hend _ (endResponse_failed hp),
    fun hp => hend _ (endResponse_padded hp),
    fun hp hcnt => hend _ (endResponse_truncated hp hcnt),
    fun hp hcnt => hend _ (endResponse_aligned hp hcnt)⟩

end Sys2Proof.Machine

/-! ### The position, the count and the phase along the steps (R24, R87) -/

namespace Sys2Proof.Machine

/-- In `RUN` the count is that of the bits that do not fill a byte, and in `FAILED` the recorded error
stands at the position where the stream stopped (R79, R112). -/
def State.PosInv (s : State) : Prop :=
  (s.phase = phaseRun → s.dcnt.toNat = 10 * s.dpos.toNat % 8) ∧
    (s.phase = phaseFailed → s.depos = s.dpos)

theorem phase_congr {s t : State} (h : t.dst = s.dst) : t.phase = s.phase :=
  congrArg (BitVec.extractLsb' 0 2) h

@[simp] theorem raise_phase (e : DecError) (s : State) : (s.raise e).phase = phaseFailed :=
  phase_of_dst _ (raise_dst e s)

@[simp] theorem raise_err (e : DecError) (s : State) : (s.raise e).err = errCode e :=
  err_of_dst _ (raise_dst e s)

theorem posInv_of_decIdle {s : State} (h : s.DecIdle) : s.PosInv := by
  obtain ⟨-, hcnt, hpos, -, hdepos⟩ := h
  refine ⟨fun _ => ?_, fun _ => hdepos.trans hpos.symm⟩
  rw [hcnt, hpos]
  rfl

theorem posInv_raise (e : DecError) (s : State) : (s.raise e).PosInv := by
  refine ⟨fun hrun => ?_, fun _ => rfl⟩
  rw [raise_phase] at hrun
  exact absurd hrun (by decide)

/-- Ten more bits, one more symbol: the eight divides the wrap of the position, so that the count
agrees across it. -/
theorem count_of_next_pos {n : Nat} {p : Pos} (h : n = 10 * p.toNat % 8) :
    (n + 10) % 8 = 10 * (p + 1).toNat % 8 := by
  have hnext : (p + 1).toNat = (p.toNat + 1) % 2 ^ 32 := BitVec.toNat_add p 1
  omega

/-- `DEC.PUSH` keeps the invariant in each of its arms (R79 to R83). -/
theorem decPush_keeps_posInv {tok : Token} {s t : State} (hs : s.PosInv)
    (h : exec (.decPush tok) s = .next t) : t.PosInv := by
  have ⟨hcount, _⟩ := hs
  obtain ⟨-, ⟨-, rfl⟩ | ⟨-, rfl⟩ | ⟨-, -, rfl⟩ | ⟨-, -, rfl⟩ | ⟨-, -, n, d, rfl, -⟩ |
    ⟨hp, -, acc, cnt, n, d, rfl, -, hcnt, -⟩⟩ := decPush_next h
  · exact hs
  · exact posInv_raise _ s
  · exact posInv_raise _ s
  · exact posInv_raise _ s
  · exact ⟨fun hrun => absurd hrun (by decide : phasePadded ≠ phaseRun),
      fun hfail => absurd hfail (by decide : phasePadded ≠ phaseFailed)⟩
  · exact ⟨fun _ => hcnt.trans (count_of_next_pos (hcount hp)),
      fun hfail => absurd (hp.symm.trans hfail) (by decide)⟩

theorem exec_keeps_posInv {i : Instr} {s t : State} (hs : s.PosInv) (h : exec i s = .next t) :
    t.PosInv := by
  cases i with
  | decPush tok => exact decPush_keeps_posInv hs h
  | decEnd => exact posInv_of_decIdle (decEnd_leaves_idle h)
  | encPush _ | encEnd | ridxLookup _ | rd _ | illegal _ =>
    obtain ⟨-, hdcnt, hdpos, hdst, hdepos⟩ := exec_keeps_dec rfl h
    rwa [State.PosInv, phase_congr hdst, hdcnt, hdpos, hdepos]

theorem step_keeps_posInv {s t : State} (hs : s.PosInv) (h : step s = .next t) : t.PosInv := by
  rcases step_cases h with ⟨-, rfl⟩ | ⟨rest, -, rfl⟩ | ⟨w, rest, -, -, he⟩
  · exact hs
  · exact posInv_of_decIdle ⟨rfl, rfl, rfl, rfl, rfl⟩
  · exact exec_keeps_posInv (s := { s with inputs := rest }) hs he

/-- Settles O12: an idle decode context has the invariant, and every event keeps it; an accepted
`Regular` symbol adds ten bits and one position, and an error is recorded at the position it leaves. -/
theorem positionAndCountStayTogether : Obligations.PositionAndCountStayTogether :=
  ⟨posInv_of_decIdle ⟨rfl, rfl, rfl, rfl, rfl⟩, fun _ _ => step_keeps_posInv⟩

/-! The rows of R87's table. -/

theorem exec_next_unique {i : Instr} {s t u : State} (h : exec i s = .next t)
    (h' : exec i s = .next u) : t = u :=
  Host.Outcome.next.inj (h.symm.trans h')

theorem status_of_answer {l : List RspWord} {r : RspWord} {st : BitVec 4} {n : BitVec 2}
    {d : BitVec 64} (h : l ++ [rspWord st n d] = l ++ [r]) : rspStatus r = st := by
  rw [← response_unique rfl h, rspStatus_rspWord]

/-- The rows that end in `FAILED` with a new error (R112). -/
theorem raise_row {e : DecError} {s : State} {r : RspWord} (hr : (s.raise e).rsps = s.rsps ++ [r]) :
    (s.raise e).phase = phaseFailed ∧ (s.raise e).err = errCode e ∧
      rspStatus r = statusCode (errStatus e) :=
  ⟨raise_phase e s, raise_err e s, status_of_answer hr⟩

/-- The row of an accepted `Regular` symbol: still `RUN`. -/
theorem decPush_regular_row {tok : Token} {c : SymCode} {s t : State} {r : RspWord}
    (h : exec (.decPush tok) s = .next t) (hr : t.rsps = s.rsps ++ [r]) (hp : s.phase = phaseRun)
    (hc : fwd s.table c = tok) (hpad : isPad c = false) :
    t.phase = phaseRun ∧ rspStatus r = 0 := by
  have hl := legal_of_exec_next h
  cases c with
  | regular i =>
    obtain ⟨acc, cnt, n, d, hpush, -⟩ := pushRegular_next hl i
    obtain rfl := exec_next_unique h (exec_decPush_of_code hl hp hc)
    rw [State.pushLooked, hpush] at hr ⊢
    exact ⟨hp, status_of_answer hr⟩
  | pad1 _ | pad2 _ | pad3 _ | pad4 _ => cases hpad

/-- The two rows of a padding symbol in `RUN`, by its leftover bits. -/
theorem decPush_pad_rows {tok : Token} {c : SymCode} {s t : State} {r : RspWord}
    (h : exec (.decPush tok) s = .next t) (hr : t.rsps = s.rsps ++ [r]) (hp : s.phase = phaseRun)
    (hc : fwd s.table c = tok) (hpad : isPad c = true) :
    let w := clsWidth (codeCls c)
    let left := (s.dacc.toNat * 2 ^ w + (codeIdx c).toNat) % 2 ^ ((s.dcnt.toNat + w) % 8)
    (left = 0 → t.phase = phasePadded ∧ rspStatus r = 0) ∧
    (left ≠ 0 → t.phase = phaseFailed ∧ t.err = 2 ∧ rspStatus r = 2) := by
  obtain ⟨hleft, hzero⟩ := exec_decPush_pad (legal_of_exec_next h) hp hc hpad
  refine ⟨fun h0 => ?_, fun h0 => ?_⟩
  · obtain rfl := exec_next_unique h (hzero h0)
    refine ⟨phase_of_dst _ rfl, ?_⟩
    split_ifs at hr <;> exact status_of_answer hr
  · obtain rfl := exec_next_unique h (hleft h0)
    exact raise_row hr

/-- The four rows of `DEC.END`. -/
theorem decEnd_rows {s t : State} {r : RspWord} (h : exec .decEnd s = .next t)
    (hr : t.rsps = s.rsps ++ [r]) :
    t.phase = phaseRun ∧
    (s.phase = phaseRun → s.dcnt = 0 → rspStatus r = 0) ∧
    (s.phase = phaseRun → s.dcnt ≠ 0 → rspStatus r = 3) ∧
    (s.phase = phasePadded → rspStatus r = 0) ∧
    (s.phase = phaseFailed → rspStatus r = s.err.setWidth 4) := by
  obtain ⟨-, rfl⟩ := decEnd_next h
  obtain rfl : s.endResponse = r := response_unique rfl hr
  refine ⟨rfl, fun hp hcnt => ?_, fun hp hcnt => ?_, fun hp => ?_, fun hp => ?_⟩
  · rw [endResponse_aligned hp hcnt, rspStatus_rspWord]
  · rw [endResponse_truncated hp hcnt, rspStatus_rspWord]
  · rw [endResponse_padded hp, rspStatus_rspWord]
  · rw [endResponse_failed hp, rspStatus_rspWord]

/-- Settles O32, row by row; the commands without a row write no decode register. -/
theorem phaseTransitions : Obligations.PhaseTransitions := by
  refine ⟨fun i s t h => ?_, fun s t rest hi h => ?_⟩
  · obtain ⟨⟨r, hr⟩, -⟩ := exec_answers h
    have hl := legal_of_exec_next h
    refine ⟨r, hr, ?_⟩
    cases i with
    | decPush tok =>
      refine ⟨fun hp hmiss => ?_, fun c hp hc => decPush_regular_row h hr hp hc,
        fun c hp hc => decPush_pad_rows h hr hp hc, fun hp => ?_, fun hp => ?_⟩
      · obtain rfl := exec_next_unique h (exec_decPush_unknown hl hp hmiss)
        exact raise_row hr
      · obtain rfl := exec_next_unique h (exec_decPush_padded hl hp)
        exact raise_row hr
      · obtain rfl := exec_next_unique h (exec_decPush_failed hl hp)
        exact ⟨hp, rfl, status_of_answer hr⟩
    | decEnd => exact decEnd_rows h hr
    | encPush _ | encEnd | ridxLookup _ | rd _ | illegal _ =>
      obtain ⟨-, -, -, hdst, -⟩ := exec_keeps_dec rfl h
      exact phase_congr hdst
  · obtain rfl := Host.Outcome.next.inj ((step_of_reset hi).symm.trans h)
    exact ⟨rfl, rfl⟩

end Sys2Proof.Machine

/-! ### The streams that decode (R86, R96) -/

namespace Sys2Proof.Machine

/-- The tokens of a list of `Regular` codes. -/
def regularTokens (t : Table) (gs : List (BitVec 10)) : List Token :=
  (gs.map SymCode.regular).map (fwd t)

@[simp] theorem length_regularTokens (t : Table) (gs : List (BitVec 10)) :
    (regularTokens t gs).length = gs.length := by
  simp [regularTokens]

theorem regularTokens_append (t : Table) (gs : List (BitVec 10)) (cs : List SymCode) :
    (gs.map SymCode.regular ++ cs).map (fwd t) = regularTokens t gs ++ cs.map (fwd t) :=
  List.map_append

theorem filterMap_rev_map_fwd (t : Table) (cs : List SymCode) :
    (cs.map (fwd t)).filterMap (rev t) = cs := by
  rw [List.filterMap_map, show rev t ∘ fwd t = some from funext (rev_fwd t), List.filterMap_some]

/-- A token that ends the run of `Regular` symbols at the front of a stream: unknown, or padding. -/
def StopsRegular (t : Table) (tok : Token) : Prop :=
  rev t tok = none ∨ ∃ c, isPad c = true ∧ fwd t c = tok

theorem regular_or_stopsRegular (t : Table) (tok : Token) :
    (∃ g, fwd t (.regular g) = tok) ∨ StopsRegular t tok := by
  cases hrev : rev t tok with
  | none => exact .inr (.inl hrev)
  | some c =>
    have hc := rev_eq_some_iff.1 hrev
    cases c with
    | regular g => exact .inl ⟨g, hc⟩
    | pad1 _ | pad2 _ | pad3 _ | pad4 _ => exact .inr (.inr ⟨_, rfl, hc⟩)

/-- Every stream begins with a run of `Regular` symbols, up to its end or to the symbol that stops
it. -/
theorem exists_regular_prefix (t : Table) (toks : List Token) : ∃ gs : List (BitVec 10),
    toks = regularTokens t gs ∨
      ∃ tok rest, toks = regularTokens t gs ++ tok :: rest ∧ StopsRegular t tok := by
  induction toks with
  | nil => exact ⟨[], .inl rfl⟩
  | cons tok toks ih =>
    rcases regular_or_stopsRegular t tok with ⟨g, rfl⟩ | hstop
    · obtain ⟨gs, rfl | ⟨tok', rest, rfl, hstop⟩⟩ := ih
      · exact ⟨g :: gs, .inl rfl⟩
      · exact ⟨g :: gs, .inr ⟨tok', rest, rfl, hstop⟩⟩
    · exact ⟨[], .inr ⟨tok, toks, rfl, hstop⟩⟩

/-! Where the first unknown and the first padding symbol stand: `u` and `p` of R96. -/

theorem findIdx?_regularTokens {t : Table} {f : Token → Bool}
    (hf : ∀ g, f (fwd t (.regular g)) = false) (gs : List (BitVec 10)) :
    (regularTokens t gs).findIdx? f = none := by
  simp [regularTokens, List.findIdx?_eq_none_iff, hf]

/-- A search that skips `Regular` symbols and takes the symbol after them finds it there. -/
theorem findIdx?_at_stop {t : Table} {f : Token → Bool} {tok : Token}
    (hf : ∀ g, f (fwd t (.regular g)) = false) (htok : f tok = true) (gs : List (BitVec 10))
    (rest : List Token) : (regularTokens t gs ++ tok :: rest).findIdx? f = some gs.length := by
  rw [List.findIdx?_append, findIdx?_regularTokens hf, Option.none_or, length_regularTokens]
  simp [List.findIdx?_cons, htok]

/-- A search that skips `Regular` symbols and the symbol after them goes on in the rest. -/
theorem findIdx?_past_stop {t : Table} {f : Token → Bool} {tok : Token}
    (hf : ∀ g, f (fwd t (.regular g)) = false) (htok : f tok = false) (gs : List (BitVec 10))
    (rest : List Token) : (regularTokens t gs ++ tok :: rest).findIdx? f =
      (rest.findIdx? f).map (· + 1 + gs.length) := by
  rw [List.findIdx?_append, findIdx?_regularTokens hf, Option.none_or, length_regularTokens]
  simp [List.findIdx?_cons, htok, Function.comp_def]

theorem isNone_rev_fwd (t : Table) (c : SymCode) : (rev t (fwd t c)).isNone = false := by
  rw [rev_fwd, Option.isNone_some]

theorem any_isPad_rev_fwd (t : Table) (c : SymCode) : (rev t (fwd t c)).any isPad = isPad c := by
  rw [rev_fwd, Option.any_some]

/-- A decode that fails where it fails a test is ok when the test is passed and the rest is ok. -/
theorem ite_failAt_eq_ok {P : Prop} [Decidable P] {e : Status} {pos : Nat} {d : DecodeResult}
    {bytes : List Byte} : (if P then failAt e pos else d) = .ok bytes ↔ ¬ P ∧ d = .ok bytes := by
  split_ifs with h <;> simp [h, failAt]

/-! The value of `decode` on each form of stream (R96). -/

/-- Clause 6: `Regular` symbols only. -/
theorem decodeFn_regularTokens (t : Table) (gs : List (BitVec 10)) :
    decodeFn t (regularTokens t gs) = if 10 * gs.length % 8 ≠ 0
      then failAt .truncatedStream gs.length else .ok (wholeBytes (gs.map .regular)) := by
  have hcodes : (regularTokens t gs).filterMap (rev t) = gs.map .regular :=
    filterMap_rev_map_fwd t _
  rw [decodeFn, firstUnknown, firstPad, findIdx?_regularTokens fun _ => isNone_rev_fwd t _,
    findIdx?_regularTokens fun _ => any_isPad_rev_fwd t _]
  simp only [decodeRegular, length_regularTokens, hcodes]

/-- Clause 2: an unknown symbol after `Regular` ones. -/
theorem decodeFn_unknown {t : Table} {tok : Token} (htok : rev t tok = none)
    (gs : List (BitVec 10)) (rest : List Token) :
    decodeFn t (regularTokens t gs ++ tok :: rest) = failAt .unknownSymbol gs.length := by
  have hmiss : (rev t tok).isNone = true := by rw [htok, Option.isNone_none]
  have hpad : (rev t tok).any isPad = false := by rw [htok, Option.any_none]
  rw [decodeFn, firstUnknown, firstPad, findIdx?_at_stop (fun _ => isNone_rev_fwd t _) hmiss,
    findIdx?_past_stop (fun _ => any_isPad_rev_fwd t _) hpad]
  cases rest.findIdx? fun s => (rev t s).any isPad with
  | none => rfl
  | some p => exact if_pos (by omega : gs.length ≤ p + 1 + gs.length)

/-- Clauses 3 to 5: a padding symbol after `Regular` ones. -/
theorem decodeFn_pad {t : Table} {c : SymCode} (hpad : isPad c = true)
    (gs : List (BitVec 10)) (rest : List Token) :
    decodeFn t (regularTokens t gs ++ fwd t c :: rest) =
      decodePadded t (regularTokens t gs ++ fwd t c :: rest) gs.length := by
  rw [decodeFn, firstUnknown, firstPad,
    findIdx?_past_stop (fun _ => isNone_rev_fwd t _) (isNone_rev_fwd t c),
    findIdx?_at_stop (fun _ => any_isPad_rev_fwd t _) ((any_isPad_rev_fwd t c).trans hpad)]
  cases rest.findIdx? fun s => (rev t s).isNone with
  | none => rfl
  | some u => exact if_neg (by omega : ¬ u + 1 + gs.length ≤ gs.length)

/-- The length of the bit string of `Regular` symbols and a last symbol. -/
theorem bitsLength_concat (gs : List (BitVec 10)) (c : SymCode) :
    bitsLength (gs.map .regular ++ [c]) = 10 * gs.length + clsWidth (codeCls c) := by
  simp [bitsLength, Function.comp_def, codeCls, clsWidth, Nat.mul_comm]

theorem length_wholeBytes (cs : List SymCode) : (wholeBytes cs).length = bitsLength cs / 8 := by
  simp [wholeBytes]

/-- The bits below the last whole byte of `Regular` symbols and a last symbol, as a number. -/
def leftoverBits (gs : List (BitVec 10)) (c : SymCode) : Nat :=
  bitsNumber (gs.map .regular ++ [c]) % 2 ^ ((10 * gs.length + clsWidth (codeCls c)) % 8)

theorem decodePadded_regularTokens (t : Table) (gs : List (BitVec 10)) (c : SymCode)
    (rest : List Token) :
    decodePadded t (regularTokens t gs ++ fwd t c :: rest) gs.length =
      if leftoverBits gs c ≠ 0 then failAt .malformedPadding gs.length
      else if rest ≠ [] then failAt .malformedPadding (gs.length + 1)
      else .ok (wholeBytes (gs.map .regular ++ [c])) := by
  have htake : (regularTokens t gs ++ fwd t c :: rest).take (gs.length + 1) =
      (gs.map SymCode.regular ++ [c]).map (fwd t) := by
    rw [regularTokens_append, ← length_regularTokens t, List.take_length_add_append]
    rfl
  have hrest : gs.length + 1 < (regularTokens t gs ++ fwd t c :: rest).length ↔ rest ≠ [] := by
    rw [← List.length_pos_iff, List.length_append, length_regularTokens, List.length_cons]
    omega
  simp only [decodePadded, htake, filterMap_rev_map_fwd, bitsLength_concat, field_eq, Nat.pow_zero,
    Nat.div_one]
  exact if_congr Iff.rfl rfl (if_congr hrest rfl rfl)

theorem decodeFn_concat_pad (t : Table) (gs : List (BitVec 10)) {c : SymCode}
    (hpad : isPad c = true) : decodeFn t ((gs.map SymCode.regular ++ [c]).map (fwd t)) =
      if leftoverBits gs c ≠ 0 then failAt .malformedPadding gs.length
      else .ok (wholeBytes (gs.map .regular ++ [c])) := by
  rw [regularTokens_append, List.map_singleton, decodeFn_pad hpad, decodePadded_regularTokens,
    if_neg (not_not.2 rfl : ¬ ([] : List Token) ≠ [])]

/-- The number of bytes of an accepted stream with a padding symbol (R86, R100). -/
theorem length_of_decodeFn_concat_pad {t : Table} {gs : List (BitVec 10)} {c : SymCode}
    {bytes : List Byte} (hpad : isPad c = true)
    (h : decodeFn t ((gs.map SymCode.regular ++ [c]).map (fwd t)) = .ok bytes) :
    bytes.length = (10 * gs.length + clsWidth (codeCls c)) / 8 := by
  rw [decodeFn_concat_pad t gs hpad, ite_failAt_eq_ok] at h
  obtain ⟨-, h⟩ := h
  rw [← DecodeResult.ok.inj h, length_wholeBytes, bitsLength_concat]

/-- The streams that R86 accepts: `Regular` symbols that fill whole bytes, or `Regular` symbols and one
padding symbol with no bit set below the last whole byte. -/
theorem decodeFn_ok_iff {t : Table} {toks : List Token} :
    (∃ bytes, decodeFn t toks = .ok bytes) ↔ ∃ gs : List (BitVec 10),
      (toks = regularTokens t gs ∧ 10 * gs.length % 8 = 0) ∨
      ∃ c, isPad c = true ∧ toks = regularTokens t gs ++ [fwd t c] ∧ leftoverBits gs c = 0 := by
  constructor
  · rintro ⟨bytes, h⟩
    obtain ⟨gs, rfl | ⟨tok, rest, rfl, hmiss | ⟨c, hpad, rfl⟩⟩⟩ := exists_regular_prefix t toks
    · rw [decodeFn_regularTokens, ite_failAt_eq_ok] at h
      obtain ⟨hlen, -⟩ := h
      exact ⟨gs, .inl ⟨rfl, not_not.1 hlen⟩⟩
    · rw [decodeFn_unknown hmiss] at h
      cases h
    · rw [decodeFn_pad hpad, decodePadded_regularTokens, ite_failAt_eq_ok, ite_failAt_eq_ok] at h
      obtain ⟨hleft, hrest, -⟩ := h
      exact ⟨gs, .inr ⟨c, hpad, by rw [not_not.1 hrest], not_not.1 hleft⟩⟩
  · rintro ⟨gs, ⟨rfl, hlen⟩ | ⟨c, hpad, rfl, hleft⟩⟩
    · exact ⟨_, (decodeFn_regularTokens t gs).trans (if_neg (not_not.2 hlen))⟩
    · rw [decodeFn_pad hpad, decodePadded_regularTokens, if_neg (not_not.2 hleft), if_neg (by simp)]
      exact ⟨_, rfl⟩

/-- `P1[0]` alone: two zero bits and no byte. -/
theorem decodeFn_pad1_zero (t : Table) : decodeFn t [fwd t (.pad1 0)] = .ok [] :=
  decodeFn_concat_pad t [] (c := .pad1 0) rfl

/-- Settles O46: the streams that decode, the bytes that a padding symbol leaves, and two streams that
decode to nothing, the empty one and `P1[0]`. -/
theorem acceptedStreams : Obligations.AcceptedStreams := by
  refine ⟨fun t toks => decodeFn_ok_iff.trans (exists_congr fun gs => ⟨?_, ?_⟩),
    fun t gs c bytes => length_of_decodeFn_concat_pad,
    fun t => ⟨[], [fwd t (.pad1 0)], by simp, decodeFn_nil t, decodeFn_pad1_zero t⟩⟩
  · rintro (⟨rfl, hlen⟩ | ⟨c, hpad, rfl, hleft⟩)
    · exact ⟨none, by simp, by simp [regularTokens], hlen⟩
    · exact ⟨some c, by simpa using hpad, (regularTokens_append t gs [c]).symm, hleft⟩
  · rintro ⟨_ | c, hpad, rfl, hbits⟩
    · exact .inl ⟨by simp [regularTokens], hbits⟩
    · exact .inr ⟨c, hpad c rfl, regularTokens_append t gs [c], hbits⟩

end Sys2Proof.Machine

/-! ### Reading a register (R89) -/

namespace Sys2Proof.Machine

theorem exec_rd_of {r : Reg} {s : State} (h : s.Legal) :
    exec (.rd r) s = .next (s.respond (statusCode .ok) 1 (readReg r s)) :=
  whenLegal_of_legal h

/-- `DST` as a number: the error above the two bits of the phase (R25). -/
theorem dst_toNat (s : State) : s.dst.toNat = 4 * s.err.toNat + s.phase.toNat := by
  have := s.dst.isLt
  simp only [State.err, State.phase, BitVec.extractLsb'_toNat, Nat.shiftRight_eq_div_pow]
  omega

/-- `RD` of a register that reads as the number `v` answers `v`, and only the response is new. -/
theorem exec_rd_answers {r : Reg} {s : State} {v : Nat} (hl : s.Legal)
    (hv : readReg r s = BitVec.ofNat 64 v) :
    exec (.rd r) s = .next { s with rsps := s.rsps ++ [rspWord 0 1 (BitVec.ofNat 64 v)] } := by
  rw [exec_rd_of hl, hv]
  rfl

/-- Settles O37: each register zero-extended is its number in 64 bits, and that of `DST` is put together
from its two fields. -/
theorem rdResult : Obligations.RdResult := by
  intro s hl
  have hdst : readReg .dst s = BitVec.ofNat 64 (4 * s.err.toNat + s.phase.toNat) := by
    rw [← dst_toNat, BitVec.ofNat_toNat]
    rfl
  have zext {w : Nat} (x : BitVec w) : x.setWidth 64 = BitVec.ofNat 64 x.toNat :=
    (BitVec.ofNat_toNat 64 x).symm
  exact ⟨fun r => decode_encode (i := .rd r) rfl, exec_rd_answers hl (zext s.eacc),
    exec_rd_answers hl (zext s.ecnt), exec_rd_answers hl (zext s.dacc),
    exec_rd_answers hl (zext s.dcnt), exec_rd_answers hl (zext s.dpos), exec_rd_answers hl hdst,
    exec_rd_answers hl (zext s.depos)⟩

end Sys2Proof.Machine

/-! ### Pieces of a bit string, cut from the top (R39, R94, R96) -/

namespace Sys2Proof.Machine

/-- Piece `j` of `w` bits, from the top, of the bit string of length `len` whose number is `v`: a group
of R94 with `w = 10`, a byte of R96 with `w = 8`. -/
def piece (v len w j : Nat) : Nat := field v (len - w - w * j) w

/-- The number of a bit string after a further string of `e` bits has been appended to it. -/
theorem append_div {e x : Nat} (hx : x < 2 ^ e) (v : Nat) : (v * 2 ^ e + x) / 2 ^ e = v := by
  rw [Nat.mul_comm, Nat.mul_add_div (Nat.two_pow_pos e), Nat.div_eq_of_lt hx, Nat.add_zero]

/-- A piece that ends within the string is not changed by appending to it. -/
theorem piece_append {e x : Nat} (hx : x < 2 ^ e) (v : Nat) {len w j : Nat} (h : w * j + w ≤ len) :
    piece (v * 2 ^ e + x) (len + e) w j = piece v len w j := by
  have hlo : len + e - w - w * j = e + (len - w - w * j) := by omega
  rw [piece, hlo, field_eq, Nat.pow_add, ← Nat.div_div_eq_div_mul, append_div hx, ← field_eq, piece]

/-- The low bits of a string with `e` bits appended, as far as they reach, need only the `r` low bits of
the string before. -/
theorem append_mod {e r u : Nat} (h : u ≤ r + e) (v x : Nat) :
    (v % 2 ^ r * 2 ^ e + x) % 2 ^ u = (v * 2 ^ e + x) % 2 ^ u := by
  have hmod : v % 2 ^ r * 2 ^ e = v * 2 ^ e % 2 ^ (r + e) := by
    rw [Nat.pow_add, Nat.mul_mod_mul_right]
  rw [hmod]
  exact ((Nat.mod_modEq _ _).of_dvd (pow_dvd_pow 2 h)).add_right x

theorem field_eq_mod_div (v lo len : Nat) : field v lo len = v % 2 ^ (lo + len) / 2 ^ lo := by
  rw [field_eq, Nat.pow_add, Nat.mod_mul_right_div_self]

/-- A field of a string with `e` bits appended needs only as many low bits as it reaches. -/
theorem field_append_mod {e r lo len : Nat} (h : lo + len ≤ r + e) (v x : Nat) :
    field (v % 2 ^ r * 2 ^ e + x) lo len = field (v * 2 ^ e + x) lo len := by
  rw [field_eq_mod_div, append_mod h, ← field_eq_mod_div]

/-- Cutting a field off the low end: the number is what stands above it, then the field. -/
theorem div_mul_add_field (v lo w : Nat) :
    v / 2 ^ (lo + w) * 2 ^ w + field v lo w = v / 2 ^ lo := by
  rw [field_eq, Nat.pow_add, ← Nat.div_div_eq_div_mul]
  exact Nat.div_add_mod' _ _

/-! The number of a list of codes (R96) and that of the groups of a byte stream (R94). -/

theorem bitsLength_append (cs ds : List SymCode) :
    bitsLength (cs ++ ds) = bitsLength cs + bitsLength ds := by
  simp [bitsLength]

theorem bitsLength_singleton (c : SymCode) : bitsLength [c] = clsWidth (codeCls c) := by
  simp [bitsLength]

theorem bitsLength_regular (gs : List (BitVec 10)) : bitsLength (gs.map .regular) = 10 * gs.length := by
  simp [bitsLength, Function.comp_def, codeCls, clsWidth, Nat.mul_comm]

theorem bitsNumber_concat (cs : List SymCode) (c : SymCode) :
    bitsNumber (cs ++ [c]) = bitsNumber cs * 2 ^ clsWidth (codeCls c) + (codeIdx c).toNat := by
  rw [bitsNumber, List.foldl_append]
  exact shiftIn_eq _ (codeIdx_lt c)

/-- The index of group `j` of the byte stream (R94). -/
def groupIdx (bs : List Byte) (j : Nat) : BitVec 10 :=
  BitVec.ofNat 10 (piece (streamNumber bs) (8 * bs.length) 10 j)

/-- The groups of the byte stream: the ten-bit pieces that are complete. -/
def groups (bs : List Byte) : List (BitVec 10) :=
  (List.range (8 * bs.length / 10)).map (groupIdx bs)

/-- The tail code of the byte stream: the bits after the last group, if there are any. -/
def tailOf (bs : List Byte) : Option SymCode :=
  tailCode (8 * bs.length % 10) (field (streamNumber bs) 0 (8 * bs.length % 10))

@[simp] theorem length_groups (bs : List Byte) : (groups bs).length = 8 * bs.length / 10 := by
  simp [groups]

/-- `encode` is the groups, then the tail (R94). -/
theorem encodeFn_eq (bs : List Byte) :
    encodeFn bs = (groups bs).map .regular ++ (tailOf bs).toList := by
  rw [groups, List.map_map]
  rfl

theorem tailOf_of_aligned {bs : List Byte} (h : 8 * bs.length % 10 = 0) : tailOf bs = none := by
  rw [tailOf, h]
  rfl

/-- A tail there is: a padding code of the width that is left, whose index is the bits left. -/
theorem tailOf_of_not_aligned {bs : List Byte} (h : 8 * bs.length % 10 ≠ 0) :
    ∃ c, tailOf bs = some c ∧ isPad c = true ∧ clsWidth (codeCls c) = 8 * bs.length % 10 ∧
      (codeIdx c).toNat = field (streamNumber bs) 0 (8 * bs.length % 10) :=
  tailCode_of_width (by omega) (field_lt _ _ _)

theorem groupIdx_toNat (bs : List Byte) (j : Nat) :
    (groupIdx bs j).toNat = piece (streamNumber bs) (8 * bs.length) 10 j :=
  (BitVec.toNat_ofNat _ _).trans (Nat.mod_eq_of_lt (field_lt _ _ _))

/-- A group that is complete is not changed by a further byte. -/
theorem groupIdx_concat {bs : List Byte} {j : Nat} (h : 10 * j + 10 ≤ 8 * bs.length) (b : Byte) :
    groupIdx (bs ++ [b]) j = groupIdx bs j := by
  rw [groupIdx, streamNumber_concat, List.length_append]
  exact congrArg _ (piece_append b.isLt _ h)

theorem streamNumber_lt (bs : List Byte) : streamNumber bs < 2 ^ (8 * bs.length) := by
  induction bs using List.reverseRecOn with
  | nil => decide
  | append_singleton bs b ih =>
    rw [streamNumber_concat, ← shiftIn_eq _ b.isLt, List.length_append, Nat.mul_add]
    exact shiftIn_lt ih b.isLt

/-- The first `k` groups are the top `10 * k` bits of the stream number. -/
theorem bitsNumber_groups (bs : List Byte) {k : Nat} (hk : 10 * k ≤ 8 * bs.length) :
    bitsNumber (((List.range k).map (groupIdx bs)).map .regular) =
      streamNumber bs / 2 ^ (8 * bs.length - 10 * k) := by
  induction k with
  | zero => exact (Nat.div_eq_of_lt (streamNumber_lt bs)).symm
  | succ k ih =>
    have hhigh : 8 * bs.length - 10 * k = 8 * bs.length - 10 * (k + 1) + 10 := by omega
    have hlow : 8 * bs.length - 10 - 10 * k = 8 * bs.length - 10 * (k + 1) := by omega
    have hidx : (codeIdx (.regular (groupIdx bs k))).toNat =
        field (streamNumber bs) (8 * bs.length - 10 * (k + 1)) 10 := by
      rw [← hlow]
      exact groupIdx_toNat bs k
    rw [List.range_succ, List.map_append, List.map_append, List.map_singleton, List.map_singleton,
      bitsNumber_concat, ih (by omega), hhigh, hidx]
    exact div_mul_add_field _ _ _

/-- The bit string that `decode` reads back from `encode bs` is that of the bytes. -/
theorem bitsNumber_encodeFn (bs : List Byte) : bitsNumber (encodeFn bs) = streamNumber bs := by
  have hgroups := bitsNumber_groups bs (k := 8 * bs.length / 10) (by omega)
  rw [show 8 * bs.length - 10 * (8 * bs.length / 10) = 8 * bs.length % 10 by omega] at hgroups
  rw [encodeFn_eq]
  by_cases h : 8 * bs.length % 10 = 0
  · rw [tailOf_of_aligned h, Option.toList_none, List.append_nil, groups, hgroups, h, Nat.pow_zero,
      Nat.div_one]
  · obtain ⟨c, hc, -, hwidth, hidx⟩ := tailOf_of_not_aligned h
    rw [hc, Option.toList_some, bitsNumber_concat, groups, hgroups, hwidth, hidx, field_eq,
      Nat.pow_zero, Nat.div_one]
    exact Nat.div_add_mod' _ _

theorem bitsLength_encodeFn (bs : List Byte) : bitsLength (encodeFn bs) = 8 * bs.length := by
  rw [encodeFn_eq, bitsLength_append, bitsLength_regular, length_groups]
  by_cases h : 8 * bs.length % 10 = 0
  · rw [tailOf_of_aligned h]
    exact Nat.mul_div_cancel' (Nat.dvd_of_mod_eq_zero h)
  · obtain ⟨c, hc, -, hwidth, -⟩ := tailOf_of_not_aligned h
    rw [hc, Option.toList_some, bitsLength_singleton, hwidth]
    exact Nat.div_add_mod _ _

/-- The whole bytes of the bit string of length `len` whose number is `v`. -/
def bytesOf (v len : Nat) : List Byte :=
  (List.range (len / 8)).map fun k => BitVec.ofNat 8 (piece v len 8 k)

@[simp] theorem length_bytesOf (v len : Nat) : (bytesOf v len).length = len / 8 := by
  simp [bytesOf]

theorem wholeBytes_eq (cs : List SymCode) :
    wholeBytes cs = bytesOf (bitsNumber cs) (bitsLength cs) := rfl

/-- The bytes that appending completes are those of the bits left over, with the new ones. -/
theorem bytesOf_append {w x : Nat} (hx : x < 2 ^ w) (v len : Nat) :
    bytesOf (v * 2 ^ w + x) (len + w) =
      bytesOf v len ++ bytesOf (v % 2 ^ (len % 8) * 2 ^ w + x) (len % 8 + w) := by
  have hcount : (len + w) / 8 = len / 8 + (len % 8 + w) / 8 := by omega
  rw [bytesOf, hcount, List.range_add, List.map_append, List.map_map, bytesOf, bytesOf]
  refine congrArg₂ _ (List.map_congr_left fun k hk => ?_) (List.map_congr_left fun k hk => ?_) <;>
    rw [List.mem_range] at hk
  · rw [piece_append hx v (by omega)]
  · have hlo : len + w - 8 - 8 * (len / 8 + k) = len % 8 + w - 8 - 8 * k := by omega
    rw [Function.comp_apply, piece, piece, hlo, field_append_mod (by omega)]

/-- The bytes of the stream number are the stream. -/
theorem bytesOf_streamNumber (bs : List Byte) : bytesOf (streamNumber bs) (8 * bs.length) = bs := by
  induction bs using List.reverseRecOn with
  | nil => rfl
  | append_singleton bs b ih =>
    have hlast : bytesOf b.toNat 8 = [b] := by
      have hb : field b.toNat 0 8 = b.toNat := field_low_of_lt b.isLt
      simp [bytesOf, piece, hb]
    rw [streamNumber_concat, List.length_append, Nat.mul_add]
    refine (bytesOf_append b.isLt _ _).trans ?_
    rw [ih, Nat.mul_mod_right, Nat.pow_zero, Nat.mod_one, Nat.zero_mul, Nat.zero_add, Nat.zero_add,
      hlast]

theorem wholeBytes_encodeFn (bs : List Byte) : wholeBytes (encodeFn bs) = bs := by
  rw [wholeBytes_eq, bitsNumber_encodeFn, bitsLength_encodeFn, bytesOf_streamNumber]

/-- Settles O43: the bits read back are those of the bytes, and their number is a multiple of eight, so
that none is left over. -/
theorem decodeOfEncodedBytesGivesThemBack : Obligations.DecodeOfEncodedBytesGivesThemBack := by
  intro t bs
  have hbytes := wholeBytes_encodeFn bs
  have hlen := bitsLength_encodeFn bs
  rw [encodeFn_eq] at hbytes hlen ⊢
  by_cases h : 8 * bs.length % 10 = 0
  · rw [tailOf_of_aligned h, Option.toList_none, List.append_nil] at hbytes hlen ⊢
    rw [bitsLength_regular] at hlen
    refine (decodeFn_regularTokens t _).trans ?_
    rw [if_neg (by omega), hbytes]
  · obtain ⟨c, hc, hpad, -, -⟩ := tailOf_of_not_aligned h
    rw [hc, Option.toList_some] at hbytes hlen ⊢
    have hleft : leftoverBits (groups bs) c = 0 := by
      rw [leftoverBits, ← bitsLength_concat, hlen, Nat.mul_mod_right, Nat.pow_zero, Nat.mod_one]
    rw [decodeFn_concat_pad t _ hpad, if_neg (not_not.2 hleft), hbytes]

end Sys2Proof.Machine

/-! ### Lengths, positions and truncation (R100 to R103) -/

namespace Sys2Proof.Machine

/-! The number of symbols and of bytes (R100). -/

/-- The groups of `n` bytes: four for every five, and one fewer than the bytes that are over. -/
theorem groupCount_of_not_aligned {n : Nat} (h : n % 5 ≠ 0) :
    8 * n / 10 + 1 = 4 * (n / 5) + n % 5 := by
  have hcases : n % 5 = 1 ∨ n % 5 = 2 ∨ n % 5 = 3 ∨ n % 5 = 4 := by omega
  rcases hcases with h | h | h | h <;> omega

/-- One tail symbol, unless the bytes are a multiple of five. -/
theorem length_tailOf (bs : List Byte) :
    (tailOf bs).toList.length = if bs.length % 5 = 0 then 0 else 1 := by
  split_ifs with h
  · rw [tailOf_of_aligned (by omega)]
    rfl
  · obtain ⟨c, hc, -⟩ := tailOf_of_not_aligned (bs := bs) (by omega)
    rw [hc]
    rfl

theorem isPad_of_mem_tailOf {bs : List Byte} {c : SymCode} (h : c ∈ (tailOf bs).toList) :
    isPad c = true := by
  by_cases h0 : 8 * bs.length % 10 = 0
  · rw [tailOf_of_aligned h0] at h
    cases h
  · obtain ⟨d, hd, hpad, -⟩ := tailOf_of_not_aligned h0
    rw [hd, Option.toList_some, List.mem_singleton] at h
    rw [h, hpad]

theorem isPad_of_mem_regular {gs : List (BitVec 10)} {c : SymCode} (h : c ∈ gs.map .regular) :
    isPad c = false := by
  obtain ⟨g, -, rfl⟩ := List.mem_map.1 h
  rfl

/-- The padding symbols of an encoding are its tail. -/
theorem filter_isPad_encodeFn (bs : List Byte) :
    (encodeFn bs).filter isPad = (tailOf bs).toList := by
  rw [encodeFn_eq, List.filter_append,
    List.filter_eq_nil_iff.2 fun c hc => by simp [isPad_of_mem_regular hc],
    List.filter_eq_self.2 fun c hc => isPad_of_mem_tailOf hc, List.nil_append]

/-- The `Regular` symbols of an encoding are its groups. -/
theorem filter_not_isPad_encodeFn (bs : List Byte) :
    (encodeFn bs).filter (fun c => !isPad c) = (groups bs).map .regular := by
  rw [encodeFn_eq, List.filter_append,
    List.filter_eq_self.2 fun c hc => by simp [isPad_of_mem_regular hc],
    List.filter_eq_nil_iff.2 fun c hc => by simp [isPad_of_mem_tailOf hc], List.append_nil]

theorem length_encodeFn (bs : List Byte) : (encodeFn bs).length = (4 * bs.length + 4) / 5 := by
  rw [encodeFn_eq, List.length_append, List.length_map, length_groups, length_tailOf]
  split_ifs with h
  · omega
  · rw [groupCount_of_not_aligned h]
    omega

/-- Settles O45: an encoding is the groups and the tail, and the bytes of an accepted stream are the
whole bytes of its bits. -/
theorem lengthLaws : Obligations.LengthLaws := by
  refine ⟨fun bs => ⟨length_encodeFn bs, ?_, ?_⟩,
    fun t gs c bytes => length_of_decodeFn_concat_pad, fun t gs bytes h => ?_⟩
  · rw [filter_not_isPad_encodeFn, List.length_map, length_groups]
  · rw [filter_isPad_encodeFn, length_tailOf]
  · obtain ⟨haligned, hbytes⟩ := ite_failAt_eq_ok.1 ((decodeFn_regularTokens t gs).symm.trans h)
    rw [← DecodeResult.ok.inj hbytes, length_wholeBytes, bitsLength_regular]
    omega

/-! The symbol that stops the run of `Regular` symbols, by its index (R101, R102). -/

theorem rev_of_getElem?_regularTokens {t : Table} {gs : List (BitVec 10)} {i : Nat} {tok : Token}
    (h : (regularTokens t gs)[i]? = some tok) : ∃ g, rev t tok = some (.regular g) := by
  obtain ⟨c, hc, rfl⟩ := List.mem_map.1 (List.mem_of_getElem? h)
  obtain ⟨g, -, rfl⟩ := List.mem_map.1 hc
  exact ⟨g, rev_fwd t _⟩

theorem getElem?_at_stop (t : Table) (gs : List (BitVec 10)) (tok : Token) (rest : List Token) :
    (regularTokens t gs ++ tok :: rest)[gs.length]? = some tok := by
  rw [List.getElem?_append_right (by simp), length_regularTokens, Nat.sub_self]
  rfl

/-- A stream with a symbol at `i` that is not `Regular` has a first one, at `i` or before. -/
theorem exists_stop_le {t : Table} {toks : List Token} {i : Nat} {tok : Token}
    (hi : toks[i]? = some tok) (htok : ∀ g, rev t tok ≠ some (.regular g)) :
    ∃ gs stop rest, toks = regularTokens t gs ++ stop :: rest ∧ StopsRegular t stop ∧
      gs.length ≤ i := by
  obtain ⟨gs, rfl | ⟨stop, rest, rfl, hstop⟩⟩ := exists_regular_prefix t toks
  · obtain ⟨g, hg⟩ := rev_of_getElem?_regularTokens hi
    exact absurd hg (htok g)
  · refine ⟨gs, stop, rest, rfl, hstop, le_of_not_gt fun hlt => ?_⟩
    rw [List.getElem?_append_left (by simpa using hlt)] at hi
    obtain ⟨g, hg⟩ := rev_of_getElem?_regularTokens hi
    exact htok g hg

theorem StopsRegular.rev_ne_regular {t : Table} {tok : Token} (h : StopsRegular t tok)
    (g : BitVec 10) : rev t tok ≠ some (.regular g) := by
  rcases h with hmiss | ⟨c, hpad, rfl⟩
  · rw [hmiss]
    rintro ⟨⟩
  · rw [rev_fwd]
    rintro ⟨rfl⟩
    cases hpad

/-- Settles O48: the unknown symbol is the first that is not `Regular`. -/
theorem unknownSymbolLaw : Obligations.UnknownSymbolLaw := by
  intro t toks u tok hu hmiss hregular
  have hustop : StopsRegular t tok := .inl hmiss
  obtain ⟨gs, stop, rest, rfl, hstop, hle⟩ := exists_stop_le hu hustop.rev_ne_regular
  have hat := getElem?_at_stop t gs stop rest
  obtain rfl : gs.length = u := by
    refine le_antisymm hle (le_of_not_gt fun hlt => ?_)
    obtain ⟨g, hg⟩ := hregular _ hlt stop hat
    exact hstop.rev_ne_regular g hg
  obtain rfl : stop = tok := Option.some.inj (hat.symm.trans hu)
  exact decodeFn_unknown hmiss gs rest

/-- Clauses 3 and 4 of R96: a padding symbol with a symbol after it. -/
theorem decodePadded_of_more {t : Table} {toks : List Token} {p : Nat} (h : p + 1 < toks.length) :
    let cs := (toks.take (p + 1)).filterMap (rev t)
    decodePadded t toks p = failAt .malformedPadding
      (if bitsNumber cs % 2 ^ (bitsLength cs % 8) ≠ 0 then p else p + 1) := by
  intro cs
  rw [decodePadded]
  simp only [field_eq, Nat.pow_zero, Nat.div_one, if_pos h, cs]
  split_ifs <;> rfl

/-- Settles O47: the first symbol that is not `Regular` is a padding symbol, and there is a symbol after
it, so that its leftover bits decide between the two positions. -/
theorem paddingPositionLaw : Obligations.PaddingPositionLaw := by
  intro t toks p tok c hp hrev hpad hlast hknown cs
  have hpstop : StopsRegular t tok := .inr ⟨c, hpad, rev_eq_some_iff.1 hrev⟩
  obtain ⟨gs, stop, rest, rfl, hstop, hle⟩ := exists_stop_le hp hpstop.rev_ne_regular
  obtain ⟨d, hd, rfl⟩ := hstop.resolve_left (hknown _ hle stop (getElem?_at_stop t gs stop rest))
  have hmore : gs.length + 1 < (regularTokens t gs ++ fwd t d :: rest).length := by omega
  have hfail := (decodeFn_pad hd gs rest).trans (decodePadded_of_more hmore)
  refine ⟨⟨_, hfail⟩, fun hfirst => ?_⟩
  rw [firstPad, findIdx?_at_stop (fun _ => any_isPad_rev_fwd t _) ((any_isPad_rev_fwd t d).trans hd)]
    at hfirst
  obtain rfl := Option.some.inj hfirst
  exact hfail

/-! An encoding without its last symbol (R103). -/

/-- Without a tail symbol the last group goes. -/
theorem dropLast_encodeFn_of_aligned {bs : List Byte} (h : bs.length % 5 = 0) :
    (encodeFn bs).dropLast = (groups bs).dropLast.map .regular := by
  rw [encodeFn_eq, tailOf_of_aligned (by omega), Option.toList_none, List.append_nil,
    List.map_dropLast]

/-- With a tail symbol the groups stay. -/
theorem dropLast_encodeFn_of_not_aligned {bs : List Byte} (h : bs.length % 5 ≠ 0) :
    (encodeFn bs).dropLast = (groups bs).map .regular := by
  obtain ⟨c, hc, -⟩ := tailOf_of_not_aligned (bs := bs) (by omega)
  rw [encodeFn_eq, hc, Option.toList_some, List.dropLast_concat]

/-- A byte after full groups completes no group. -/
theorem groups_concat_of_aligned {bs : List Byte} (h : bs.length % 5 = 0) (b : Byte) :
    groups (bs ++ [b]) = groups bs := by
  have hcount : 8 * (bs ++ [b]).length / 10 = 8 * bs.length / 10 := by
    rw [List.length_append, List.length_singleton]
    omega
  rw [groups, hcount]
  refine List.map_congr_left fun j hj => ?_
  rw [List.mem_range] at hj
  exact groupIdx_concat (by omega) b

/-- An encoding without its last symbol, the bytes one more than a multiple of five: that of the bytes
before the last. -/
theorem dropLast_encodeFn_of_one_over {bs : List Byte} (h : bs.length % 5 = 1) :
    (encodeFn bs).dropLast = encodeFn bs.dropLast := by
  obtain ⟨l, b, rfl⟩ := (List.eq_nil_or_concat' bs).resolve_left (by rintro rfl; cases h)
  have hl : l.length % 5 = 0 := by
    rw [List.length_append, List.length_singleton] at h
    omega
  rw [dropLast_encodeFn_of_not_aligned (by omega), groups_concat_of_aligned hl, List.dropLast_concat,
    encodeFn_eq, tailOf_of_aligned (by omega), Option.toList_none, List.append_nil]

/-- The `Regular` symbols that stay do not fill whole bytes, except where the tail was one byte. -/
theorem exists_dropLast_encodeFn {bs : List Byte} (h2 : 2 ≤ (encodeFn bs).length)
    (h1 : bs.length % 5 ≠ 1) : ∃ gs : List (BitVec 10),
      (encodeFn bs).dropLast = gs.map .regular ∧ 10 * gs.length % 8 ≠ 0 := by
  rw [length_encodeFn] at h2
  by_cases h : bs.length % 5 = 0
  · refine ⟨_, dropLast_encodeFn_of_aligned h, ?_⟩
    rw [List.length_dropLast, length_groups]
    omega
  · have hcount := groupCount_of_not_aligned h
    refine ⟨_, dropLast_encodeFn_of_not_aligned h, ?_⟩
    rw [length_groups]
    omega

/-- Settles O49: what stays is `Regular` symbols that leave bits over, or the encoding of all the bytes
but the last. -/
theorem truncationLaw : Obligations.TruncationLaw := by
  intro t bs h2 toks
  have htoks : toks = ((encodeFn bs).dropLast).map (fwd t) := List.map_dropLast.symm
  rw [htoks]
  refine ⟨fun h1 => ?_, fun h1 => ?_⟩
  · obtain ⟨gs, hgs, hleft⟩ := exists_dropLast_encodeFn h2 h1
    rw [hgs]
    refine (decodeFn_regularTokens t gs).trans ((if_pos hleft).trans ?_)
    rw [List.length_map, List.length_map]
  · rw [dropLast_encodeFn_of_one_over h1]
    exact decodeOfEncodedBytesGivesThemBack t bs.dropLast

end Sys2Proof.Machine

/-! ### The encode stream on the block (R95) -/

namespace Sys2Proof.Machine

/-! Runs of presented commands. -/

/-- A run of presented commands goes on where a first part of them has left it. -/
theorem run_presentAll_append {is : List Instr} (hwf : ∀ i ∈ is, i.wellFormed = true) {s t : State}
    (hl : s.Legal) (h : core.run is.length (s.presentAll is) = .next t) (js : List Instr) (k : Nat) :
    core.run (is.length + k) (s.presentAll (is ++ js)) = core.run k (t.presentAll js) := by
  induction is generalizing s with
  | nil =>
    obtain rfl : s = t := Host.Outcome.next.inj h
    rw [List.length_nil, Nat.zero_add, List.nil_append]
  | cons i is ih =>
    obtain ⟨hwfi, hwf⟩ := List.forall_mem_cons.1 hwf
    obtain ⟨u, hu⟩ := exec_answers_of_legal i hl
    have hdec := decode_encode hwfi
    rw [List.length_cons, run_presentAll hdec hu] at h
    rw [List.length_cons, Nat.add_right_comm, List.cons_append, run_presentAll hdec hu]
    exact ih hwf (exec_keeps_legal hu) h

/-- A run of one command is its meaning. -/
theorem run_presentAll_one {i : Instr} (hwf : i.wellFormed = true) {s t : State}
    (h : exec i s = .next t) : core.run 1 (s.presentAll [i]) = .next t :=
  run_presentAll (k := 0) (decode_encode hwf) h

/-- One command more at the end of a run. -/
theorem run_presentAll_concat {is : List Instr} (hwf : ∀ i ∈ is, i.wellFormed = true) {i : Instr}
    (hwfi : i.wellFormed = true) {s t u : State} (hl : s.Legal)
    (h : core.run is.length (s.presentAll is) = .next t) (hu : exec i t = .next u) :
    core.run (is ++ [i]).length (s.presentAll (is ++ [i])) = .next u := by
  rw [List.length_append]
  exact (run_presentAll_append hwf hl h [i] 1).trans (run_presentAll_one hwfi hu)

/-! The responses of the pushes. -/

/-- The response of push `i` of an encode stream: the push that begins a block of five bytes only loads
its byte, and any other completes a group. -/
def groupRsp (t : Table) (bs : List Byte) (i : Nat) : RspWord :=
  if 8 * i % 10 = 0 then rspWord 0 0 0
  else rspWord 0 1 (fwd t (.regular (groupIdx bs (8 * i / 10))))

/-- A response already given is not changed by a further byte. -/
theorem groupRsp_concat (t : Table) {bs : List Byte} {i : Nat} (hi : i < bs.length) (b : Byte) :
    groupRsp t (bs ++ [b]) i = groupRsp t bs i := by
  unfold groupRsp
  split_ifs with h
  · rfl
  · have hfits : 10 * (8 * i / 10) + 10 ≤ 8 * bs.length := by omega
    rw [groupIdx_concat hfits]

/-- `ENC.PUSH` after the bytes `bs`: the group is the bits held and the byte's high bits, which are the
next ten bits of the stream. -/
theorem State.HoldsTail.exec_encPush {bs : List Byte} {s : State} (hl : s.Legal) (hs : s.HoldsTail bs)
    (b : Byte) : ∃ acc cnt, exec (.encPush b) s =
      .next (s.packed acc cnt [groupRsp s.table (bs ++ [b]) bs.length]) := by
  obtain ⟨hcnt, hacc⟩ := hs
  rw [exec_encPush_of hl, groupRsp]
  split_ifs with hc h0 h0
  · omega
  · have hlen : (bs ++ [b]).length = bs.length + 1 := by simp
    have hgroup : field (shiftIn s.eacc.toNat 8 b.toNat) (s.ecnt.toNat + 8 - 10) 10 =
        piece (streamNumber (bs ++ [b])) (8 * (bs ++ [b]).length) 10 (8 * bs.length / 10) := by
      have hlo : 8 * (bs ++ [b]).length - 10 - 10 * (8 * bs.length / 10) =
          8 * bs.length % 10 + 8 - 10 := by omega
      rw [shiftIn_eq _ b.isLt, hacc, hcnt, field_append_mod (by omega), piece, hlo,
        streamNumber_concat]
    rw [hgroup]
    exact ⟨_, _, rfl⟩
  · exact ⟨_, _, rfl⟩
  · omega

/-- The pushes of a stream from an idle context, by induction on the bytes: the tail is held and each
push has given its response. -/
theorem run_encPushes_responses (bs : List Byte) {s : State} (hl : s.Legal) (hidle : s.EncIdle) :
    ∃ acc cnt,
      let t := s.packed acc cnt ((List.range bs.length).map (groupRsp s.table bs))
      core.run (bs.map Instr.encPush).length (s.presentAll (bs.map .encPush)) = .next t ∧
      t.Legal ∧ t.HoldsTail bs := by
  induction bs using List.reverseRecOn with
  | nil =>
    have hstart : s.packed 0 0 [] = s := by
      rw [packed_of_idle hidle, List.append_nil]
    refine ⟨0, 0, ?_⟩
    change core.run 0 s = .next (s.packed 0 0 []) ∧ (s.packed 0 0 []).Legal ∧
      (s.packed 0 0 []).HoldsTail []
    rw [hstart]
    exact ⟨rfl, hl, holdsTail_of_idle hidle⟩
  | append_singleton bs b ih =>
    obtain ⟨acc, cnt, hrun, hlt, htail⟩ := ih
    obtain ⟨acc', cnt', hpush⟩ := htail.exec_encPush hlt b
    have hrsps : (List.range (bs ++ [b]).length).map (groupRsp s.table (bs ++ [b])) =
        (List.range bs.length).map (groupRsp s.table bs) ++
          [groupRsp s.table (bs ++ [b]) bs.length] := by
      rw [List.length_append, List.length_singleton, List.range_succ, List.map_append]
      refine congrArg (· ++ _) (List.map_congr_left fun i hi => ?_)
      exact groupRsp_concat _ (List.mem_range.1 hi) b
    rw [packed_packed, packed_table, ← hrsps] at hpush
    refine ⟨acc', cnt', ?_, exec_keeps_legal hpush, htail.encPush hpush⟩
    rw [List.map_append]
    exact run_presentAll_concat (by simp [Instr.wellFormed]) rfl hl hrun hpush

/-- The response of `ENC.END` after the bytes `bs`: the tail symbol, if there is one. -/
def tailRsp (t : Table) (bs : List Byte) : RspWord :=
  match tailOf bs with
  | some c => rspWord 0 1 (fwd t c)
  | none => rspWord 0 0 0

theorem State.HoldsTail.encEndResponse {bs : List Byte} {s : State} (hs : s.HoldsTail bs) :
    s.encEndResponse = tailRsp s.table bs := by
  obtain ⟨hcnt, hacc⟩ := hs
  have hidx : field s.eacc.toNat 0 s.ecnt.toNat =
      field (streamNumber bs) 0 (8 * bs.length % 10) := by
    rw [hacc, hcnt, field_eq, field_eq, Nat.pow_zero, Nat.div_one, Nat.div_one, Nat.mod_mod]
  rw [State.encEndResponse, hidx, hcnt]
  rfl

/-- The responses of an encode stream. -/
def encRsps (t : Table) (bs : List Byte) : List RspWord :=
  (List.range bs.length).map (groupRsp t bs) ++ [tailRsp t bs]

/-- `ENCODE` from an idle context leaves the responses and nothing else. -/
theorem run_encodeSeq (bs : List Byte) {s : State} (hl : s.Legal) (hidle : s.EncIdle) :
    core.run (bs.length + 1) (s.presentAll (encodeSeq bs)) =
      .next { s with rsps := s.rsps ++ encRsps s.table bs } := by
  obtain ⟨acc, cnt, hrun, hlt, htail⟩ := run_encPushes_responses bs hl hidle
  have hend := exec_encEnd_answers hlt htail.encEndResponse
  rw [packed_packed, packed_table, packed_of_idle hidle] at hend
  have h := run_presentAll_concat (by simp [Instr.wellFormed]) rfl hl hrun hend
  rwa [List.length_append, List.length_map] at h

/-! The symbols that the responses carry (R56). -/

@[simp] theorem rspSymbols_none (st : BitVec 4) (d : BitVec 64) : rspSymbols (rspWord st 0 d) = [] := by
  simp [rspSymbols]

@[simp] theorem rspSymbols_one (st : BitVec 4) (tok : Token) :
    rspSymbols (rspWord st 1 tok) = [tok] := by
  simp [rspSymbols]

theorem rspSymbols_groupRsp (t : Table) (bs : List Byte) (i : Nat) : rspSymbols (groupRsp t bs i) =
    if 8 * i % 10 = 0 then [] else [fwd t (.regular (groupIdx bs (8 * i / 10)))] := by
  rw [groupRsp]
  split_ifs
  · exact rspSymbols_none _ _
  · exact rspSymbols_one _ _

theorem rspSymbols_tailRsp (t : Table) (bs : List Byte) :
    rspSymbols (tailRsp t bs) = ((tailOf bs).toList).map (fwd t) := by
  rw [tailRsp]
  cases tailOf bs with
  | none => exact rspSymbols_none _ _
  | some c => exact rspSymbols_one _ _

/-- The first `n` pushes carry the groups that are complete after them. -/
theorem outSymbols_pushes (t : Table) (bs : List Byte) (n : Nat) :
    outSymbols ((List.range n).map (groupRsp t bs)) =
      (List.range (8 * n / 10)).map fun j => fwd t (.regular (groupIdx bs j)) := by
  induction n with
  | zero => rfl
  | succ n ih =>
    rw [outSymbols] at ih ⊢
    rw [List.range_succ, List.map_append, List.flatMap_append, ih, List.map_singleton,
      List.flatMap_singleton, rspSymbols_groupRsp]
    split_ifs with h
    · rw [show 8 * (n + 1) / 10 = 8 * n / 10 by omega, List.append_nil]
    · rw [show 8 * (n + 1) / 10 = 8 * n / 10 + 1 by omega, List.range_succ, List.map_append]
      rfl

theorem outSymbols_encRsps (t : Table) (bs : List Byte) :
    outSymbols (encRsps t bs) = (encodeFn bs).map (fwd t) := by
  rw [encRsps, outSymbols, List.flatMap_append, List.flatMap_singleton, rspSymbols_tailRsp,
    encodeFn_eq, List.map_append, groups, List.map_map, List.map_map]
  exact congrArg (· ++ _) (outSymbols_pushes t bs bs.length)

theorem rspStatus_of_mem_encRsps {t : Table} {bs : List Byte} {r : RspWord} (h : r ∈ encRsps t bs) :
    rspStatus r = 0 := by
  rcases List.mem_append.1 h with h | h
  · obtain ⟨i, -, rfl⟩ := List.mem_map.1 h
    unfold groupRsp
    split_ifs <;> exact rspStatus_rspWord _ _ _
  · rw [List.mem_singleton.1 h, tailRsp]
    cases tailOf bs <;> exact rspStatus_rspWord _ _ _

/-- Settles O41: the responses of the stream are the groups' and the tail's, and the push of byte `i`
completes group `8i div 10` unless it begins a block of five. -/
theorem encodeStreamRealisesEncode : Obligations.EncodeStreamRealisesEncode := by
  intro bs s hl hidle
  refine ⟨encRsps s.table bs, run_encodeSeq bs hl hidle, by simp [encRsps],
    fun r => rspStatus_of_mem_encRsps, outSymbols_encRsps s.table bs, fun j hj => ?_, fun _ => ?_⟩
  · have hi : (10 * j + 9) / 8 < bs.length := by omega
    have hpush : (encRsps s.table bs)[(10 * j + 9) / 8]? =
        some (groupRsp s.table bs ((10 * j + 9) / 8)) := by
      simp [encRsps, List.getElem?_append_left, hi]
    rw [hpush, Option.map_some, rspSymbols_groupRsp, if_neg (by omega),
      show 8 * ((10 * j + 9) / 8) / 10 = j by omega, List.getElem?_map, encodeFn_getElem?_group hj]
    rfl
  · have hend : (encRsps s.table bs)[bs.length]? = some (tailRsp s.table bs) := by
      simp [encRsps]
    rw [hend, Option.map_some, rspSymbols_tailRsp, List.getElem?_map, encodeFn_getElem?_tail]
    exact congrArg some Option.toList_map.symm

end Sys2Proof.Machine

/-! ### The decode stream on the block (R97) -/

namespace Sys2Proof.Machine

/-! The bytes that the responses carry (R57), and where (R97). -/

/-- The bytes whose last bit is in symbol `j` of the stream (R97): bit `8i + 7` is the last of byte `i`,
and symbol `j` brings the ten bits from `10j` on. -/
def carriedBy (bytes : List Byte) (j : Nat) : List Byte :=
  bytes.zipIdx.filterMap fun p => if (8 * p.2 + 7) / 10 = j then some p.1 else none

/-- Appended bytes that symbol `j` completes, none of the bytes before being its own. -/
theorem carriedBy_append_all {bytes new : List Byte} {j : Nat} (hold : 8 * bytes.length ≤ 10 * j)
    (hnew : ∀ i, bytes.length ≤ i → i < bytes.length + new.length → (8 * i + 7) / 10 = j) :
    carriedBy (bytes ++ new) j = new := by
  rw [carriedBy, List.zipIdx_append, List.filterMap_append, List.filterMap_eq_nil_iff.2,
    List.nil_append]
  · have hall : ∀ p ∈ new.zipIdx (0 + bytes.length),
        (if (8 * p.2 + 7) / 10 = j then some p.1 else none) = some p.1 := by
      intro p hp
      have hle := List.le_snd_of_mem_zipIdx hp
      have hlt := List.snd_lt_add_of_mem_zipIdx hp
      exact if_pos (hnew p.2 (by omega) (by omega))
    rw [List.filterMap_congr hall, List.filterMap_eq_map', List.zipIdx_map_fst]
  · intro p hp
    have hlt := List.snd_lt_of_mem_zipIdx hp
    exact if_neg (by omega)

/-- Appended bytes that later symbols complete. -/
theorem carriedBy_append_none {bytes new : List Byte} {j : Nat}
    (hnew : ∀ i, bytes.length ≤ i → i < bytes.length + new.length → (8 * i + 7) / 10 ≠ j) :
    carriedBy (bytes ++ new) j = carriedBy bytes j := by
  rw [carriedBy, List.zipIdx_append, List.filterMap_append]
  refine (congrArg _ (List.filterMap_eq_nil_iff.2 fun p hp => ?_)).trans (List.append_nil _)
  have hle := List.le_snd_of_mem_zipIdx hp
  have hlt := List.snd_lt_add_of_mem_zipIdx hp
  exact if_neg (hnew p.2 (by omega) (by omega))

/-- Responses that carry the bytes, each byte in the response to the symbol that brings its last bit. -/
structure CarriesBytes (rs : List RspWord) (bytes : List Byte) : Prop where
  out : outBytes rs = bytes
  placed : ∀ j < rs.length, (rs[j]?).map rspBytes = some (carriedBy bytes j)
  fit : 8 * bytes.length ≤ 10 * rs.length

theorem carriesBytes_nil : CarriesBytes [] [] where
  out := rfl
  placed := by simp
  fit := le_rfl

/-- One response more, with the bytes that its symbol completes. -/
theorem CarriesBytes.concat {rs : List RspWord} {bytes : List Byte} (h : CarriesBytes rs bytes)
    {r : RspWord} (hnew : ∀ i, bytes.length ≤ i → i < bytes.length + (rspBytes r).length →
      (8 * i + 7) / 10 = rs.length) : CarriesBytes (rs ++ [r]) (bytes ++ rspBytes r) where
  out := by
    have hout := h.out
    rw [outBytes] at hout ⊢
    rw [List.flatMap_append, hout, List.flatMap_singleton]
  placed := by
    intro j hj
    rw [List.length_append, List.length_singleton] at hj
    by_cases hlast : j = rs.length
    · rw [hlast, List.getElem?_concat_length, carriedBy_append_all h.fit hnew]
      rfl
    · rw [List.getElem?_append_left (by omega), h.placed j (by omega), carriedBy_append_none]
      intro i hle hlt
      rw [hnew i hle hlt]
      exact Ne.symm hlast
  fit := by
    have hfit := h.fit
    rw [List.length_append, List.length_append, List.length_singleton]
    by_cases hempty : (rspBytes r).length = 0
    · omega
    · have hlast := hnew (bytes.length + (rspBytes r).length - 1) (by omega) (by omega)
      omega

/-- One response more that carries no byte. -/
theorem CarriesBytes.concat_none {rs : List RspWord} {bytes : List Byte} (h : CarriesBytes rs bytes)
    {r : RspWord} (hnone : rspBytes r = []) : CarriesBytes (rs ++ [r]) bytes := by
  have hrs := h.concat (r := r) fun i hle hlt => by
    rw [hnone, List.length_nil] at hlt
    omega
  rwa [hnone, List.append_nil] at hrs

/-- The response of an accepted symbol (R57). -/
def bytesRsp (bs : List Byte) : RspWord := rspWord 0 (BitVec.ofNat 2 bs.length) (byteData bs)

@[simp] theorem rspStatus_bytesRsp (bs : List Byte) : rspStatus (bytesRsp bs) = 0 :=
  rspStatus_rspWord _ _ _

@[simp] theorem rspBytes_empty (st : BitVec 4) (d : BitVec 64) : rspBytes (rspWord st 0 d) = [] := by
  simp [rspBytes]

theorem rspBytes_one (d : BitVec 64) : rspBytes (rspWord 0 1 d) = [d.extractLsb' 0 8] := by
  simp [rspBytes, statusCode]

theorem rspBytes_two (d : BitVec 64) :
    rspBytes (rspWord 0 2 d) = [d.extractLsb' 0 8, d.extractLsb' 8 8] := by
  simp [rspBytes, statusCode, List.range_succ]

/-- A host reads back from a response the bytes that it carries, at most two. -/
theorem rspBytes_bytesRsp {bs : List Byte} (h : bs.length ≤ 2) : rspBytes (bytesRsp bs) = bs := by
  match bs, h with
  | [], _ => exact rspBytes_empty _ _
  | [b], _ =>
    refine (rspBytes_one _).trans (congrArg (fun x => [x]) ?_)
    rw [byteData_one, ← BitVec.setWidth_eq_extractLsb' (by decide),
      BitVec.setWidth_setWidth_of_le _ (by decide), BitVec.setWidth_eq]
  | [b0, b1], _ =>
    have hdata := byteData_two b0 b1
    have h0 := b0.isLt
    have h1 := b1.isLt
    refine (rspBytes_two _).trans (congrArg₂ (fun x y => [x, y]) ?_ ?_) <;>
      apply BitVec.eq_of_toNat_eq <;>
      rw [BitVec.extractLsb'_toNat, hdata, Nat.shiftRight_eq_div_pow] <;> omega

/-! `DEC.PUSH` of an accepted symbol, by the bits held and the symbol's bits (R79, R80). -/

/-- A `Regular` symbol in `RUN`: the whole bytes of the bits held and the ten new bits leave, and the
rest stays. -/
theorem exec_decPush_regular {s : State} (hl : s.Legal) (hp : s.phase = phaseRun) (g : BitVec 10) :
    let a := s.dacc.toNat * 2 ^ 10 + g.toNat
    let n := s.dcnt.toNat + 10
    exec (.decPush (fwd s.table (.regular g))) s = .next { s with
      dacc := BitVec.ofNat 16 (a % 2 ^ (n % 8)), dcnt := BitVec.ofNat 5 (n % 8)
      dpos := s.dpos + 1, rsps := s.rsps ++ [bytesRsp (bytesOf a n)] } := by
  intro a n
  have hpush : exec (.decPush (fwd s.table (.regular g))) s = .next (s.pushRegular g) :=
    exec_decPush_of_code hl hp rfl
  have hcnt : s.dcnt.toNat = 6 ∨ s.dcnt.toNat = 0 ∨ s.dcnt.toNat = 2 ∨ s.dcnt.toNat = 4 := by
    obtain ⟨-, ⟨heven, hle, -⟩, -⟩ := hl
    omega
  have hlow : ∀ k, field a 0 k = a % 2 ^ k := fun k => by rw [field_eq, Nat.pow_zero, Nat.div_one]
  rw [hpush, State.pushRegular, shiftIn_eq _ g.isLt]
  simp only [n]
  rcases hcnt with h | h
  · rw [h, if_pos rfl, show (6 + 10) % 8 = 0 from rfl, Nat.pow_zero, Nat.mod_one]
    rfl
  · rcases h with h | h | h <;> rw [h, if_neg (by decide), hlow] <;> rfl

/-- The response of an accepted padding symbol carries the whole byte of its bits, if there is one. -/
theorem rspBytes_of_pad {a n : Nat} (hn : n < 16) :
    rspBytes (if 8 ≤ n then rspWord 0 1 (BitVec.ofNat 64 (a / 2 ^ (n % 8))) else rspWord 0 0 0) =
      bytesOf a n := by
  split_ifs with h8
  · have hone : n / 8 = 1 := by omega
    have hlo : n - 8 - 8 * 0 = n % 8 := by omega
    have hbytes : bytesOf a n = [BitVec.ofNat 8 (a / 2 ^ (n % 8) % 2 ^ 8)] := by
      rw [bytesOf, hone, ← field_eq, ← hlo]
      rfl
    rw [rspBytes_one, hbytes]
    refine congrArg (fun x => [x]) (BitVec.eq_of_toNat_eq ?_)
    rw [BitVec.extractLsb'_toNat, BitVec.toNat_ofNat, BitVec.toNat_ofNat, Nat.shiftRight_zero]
    omega
  · have hzero : n / 8 = 0 := by omega
    rw [rspBytes_empty, bytesOf, hzero]
    rfl

/-! The frame of a decode stream. -/

/-- Two states that differ in the decode context and in the responses at most. -/
def SameOutsideDec (s t : State) : Prop :=
  ∀ rs, ({ t.clearDec with rsps := rs } : State) = { s.clearDec with rsps := rs }

theorem SameOutsideDec.trans {s t u : State} (h : SameOutsideDec s t) (h' : SameOutsideDec t u) :
    SameOutsideDec s u := fun rs => (h' rs).trans (h rs)

theorem SameOutsideDec.table_eq {s t : State} (h : SameOutsideDec s t) : t.table = s.table :=
  (congrArg State.table (h []) :)

theorem decPush_sameOutsideDec {tok : Token} {s t : State} (h : exec (.decPush tok) s = .next t) :
    SameOutsideDec s t := by
  obtain ⟨-, ⟨-, rfl⟩ | ⟨-, rfl⟩ | ⟨-, -, rfl⟩ | ⟨-, -, rfl⟩ | ⟨-, -, n, d, rfl, -⟩ |
    ⟨-, -, acc, cnt, n, d, rfl, -⟩⟩ := decPush_next h <;> exact fun _ => rfl

theorem clearDec_of_idle {s : State} (h : s.DecIdle) : s.clearDec = s := by
  cases s
  obtain ⟨hacc, hcnt, hpos, hdst, hdepos⟩ := h
  cases hacc
  cases hcnt
  cases hpos
  cases hdst
  cases hdepos
  rfl

/-- Clearing the decode context of a stream that began in an idle one leaves the responses only. -/
theorem SameOutsideDec.cleared {s t : State} (h : SameOutsideDec s t) (hidle : s.DecIdle)
    {rs : List RspWord} (hrs : t.rsps = s.rsps ++ rs) (last : List RspWord) :
    ({ t.clearDec with rsps := t.rsps ++ last } : State) =
      { s with rsps := s.rsps ++ (rs ++ last) } := by
  rw [h, clearDec_of_idle hidle, hrs, List.append_assoc]

/-! Runs of accepted symbols. -/

/-- From a legal state `s` with an idle decode context, the pushes of `toks` are all accepted: the block
is then in `t` and has given the responses `rs`. -/
structure Accepted (s : State) (toks : List Token) (rs : List RspWord) (t : State) : Prop where
  start : s.Legal
  idle : s.DecIdle
  run : core.run (toks.map Instr.decPush).length (s.presentAll (toks.map .decPush)) = .next t
  legal : t.Legal
  frame : SameOutsideDec s t
  length : rs.length = toks.length
  pos : t.dpos = BitVec.ofNat 32 toks.length
  rsps : t.rsps = s.rsps ++ rs
  ok : ∀ r ∈ rs, rspStatus r = 0

theorem accepted_nil {s : State} (hl : s.Legal) (hidle : s.DecIdle) : Accepted s [] [] s := by
  have ⟨_, _, hpos, _, _⟩ := hidle
  exact
    { start := hl
      idle := hidle
      run := rfl
      legal := hl
      frame := fun _ => rfl
      length := rfl
      pos := hpos
      rsps := (List.append_nil _).symm
      ok := by simp }

theorem wellFormed_of_mem_pushes {toks : List Token} {i : Instr} (h : i ∈ toks.map Instr.decPush) :
    i.wellFormed = true := by
  obtain ⟨tok, -, rfl⟩ := List.mem_map.1 h
  rfl

theorem forall_ok_concat {rs : List RspWord} {r : RspWord} (h : ∀ r ∈ rs, rspStatus r = 0)
    (hr : rspStatus r = 0) : ∀ r' ∈ rs ++ [r], rspStatus r' = 0 :=
  List.forall_mem_append.2 ⟨h, List.forall_mem_singleton.2 hr⟩

/-- `DEC.PUSH` that answers `OK` counts its symbol (R24). -/
theorem dpos_of_decPush_ok {tok : Token} {s t : State} {r : RspWord}
    (h : exec (.decPush tok) s = .next t) (hrsps : t.rsps = s.rsps ++ [r]) (hr : rspStatus r = 0) :
    t.dpos = s.dpos + 1 := by
  obtain ⟨r', hr', ⟨-, hpos⟩ | ⟨hne, -⟩⟩ := decPush_answer h
  · exact hpos
  · rw [← response_unique hrsps hr', hr] at hne
    exact absurd hne (by decide)

/-- One accepted symbol more. -/
theorem Accepted.push {s t u : State} {toks : List Token} {rs : List RspWord}
    (h : Accepted s toks rs t) {tok : Token} {r : RspWord} (hpush : exec (.decPush tok) t = .next u)
    (hrsps : u.rsps = t.rsps ++ [r]) (hr : rspStatus r = 0) :
    Accepted s (toks ++ [tok]) (rs ++ [r]) u where
  start := h.start
  idle := h.idle
  run := by
    rw [List.map_append]
    exact run_presentAll_concat (fun _ => wellFormed_of_mem_pushes) rfl h.start h.run hpush
  legal := exec_keeps_legal hpush
  frame := h.frame.trans (decPush_sameOutsideDec hpush)
  length := by rw [List.length_append, List.length_append, h.length, List.length_singleton,
    List.length_singleton]
  pos := by
    rw [dpos_of_decPush_ok hpush hrsps hr, h.pos, List.length_append, BitVec.ofNat_add]
    rfl
  rsps := by rw [hrsps, h.rsps, List.append_assoc]
  ok := forall_ok_concat h.ok hr

/-- A decode stream goes on after its accepted symbols. -/
theorem Accepted.run_rest {s t : State} {toks : List Token} {rs : List RspWord}
    (h : Accepted s toks rs t) (rest : List Token) :
    core.run ((toks ++ rest).length + 1) (s.presentAll (decodeSeq (toks ++ rest))) =
      core.run (rest.length + 1) (t.presentAll (decodeSeq rest)) := by
  have hrest := run_presentAll_append (fun _ => wellFormed_of_mem_pushes) h.start h.run
    (decodeSeq rest) (rest.length + 1)
  rw [List.length_map] at hrest
  rwa [List.length_append, Nat.add_assoc, decodeSeq, List.map_append, List.append_assoc]

/-! The ends of a decode stream. -/

/-- `DEC.END` alone. -/
theorem run_decodeSeq_nil {s : State} (hl : s.Legal) : core.run 1 (s.presentAll (decodeSeq [])) =
    .next { s.clearDec with rsps := s.rsps ++ [s.endResponse] } :=
  run_presentAll_one rfl (exec_decEnd_of hl)

/-- The rest of a stream that has failed: every command answers the recorded error (R83, R84). -/
theorem run_decodeSeq_failed (rest : List Token) {s : State} (hl : s.Legal)
    (hp : s.phase = phaseFailed) : core.run (rest.length + 1) (s.presentAll (decodeSeq rest)) =
      .next { s.clearDec with
        rsps := s.rsps ++ List.replicate (rest.length + 1)
          (rspWord (s.err.setWidth 4) 0 (s.depos.setWidth 64)) } := by
  induction rest generalizing s with
  | nil =>
    rw [← endResponse_failed hp]
    exact run_decodeSeq_nil hl
  | cons tok rest ih =>
    have hpush := exec_decPush_failed (tok := tok) hl hp
    refine (run_presentAll (decode_encode rfl) hpush).trans ?_
    refine (ih (exec_keeps_legal hpush) hp).trans (congrArg Host.Outcome.next ?_)
    rw [List.length_cons, List.replicate_succ (n := rest.length + 1), List.append_cons]
    rfl

theorem setWidth_errCode (e : DecError) : (errCode e).setWidth 4 = statusCode (errStatus e) := by
  cases e <;> rfl

/-- A stream that fails at its next symbol: that symbol and every command after it answers the error at
the position (R112, R114). -/
theorem run_decodeSeq_raises {tok : Token} (rest : List Token) {e : DecError} {s : State}
    (h : exec (.decPush tok) s = .next (s.raise e)) :
    core.run ((tok :: rest).length + 1) (s.presentAll (decodeSeq (tok :: rest))) =
      .next { s.clearDec with
        rsps := s.rsps ++ List.replicate (rest.length + 2)
          (rspWord (statusCode (errStatus e)) 0 (s.dpos.setWidth 64)) } := by
  refine (run_presentAll (decode_encode rfl) h).trans ?_
  refine (run_decodeSeq_failed rest (exec_keeps_legal h) (raise_phase e s)).trans
    (congrArg Host.Outcome.next ?_)
  rw [raise_err, setWidth_errCode, List.replicate_succ (n := rest.length + 1), List.append_cons]
  rfl

/-- The responses of a decode stream of `m` symbols, by its result. -/
inductive StreamAnswers (m : Nat) : List RspWord → DecodeResult → Prop where
  | ok {rs : List RspWord} {bytes : List Byte} (hlen : rs.length = m + 1)
      (hok : ∀ r ∈ rs, rspStatus r = 0) (h : CarriesBytes rs bytes) : StreamAnswers m rs (.ok bytes)
  | truncated {oks : List RspWord} (hlen : oks.length = m) (hok : ∀ r ∈ oks, rspStatus r = 0) :
      StreamAnswers m (oks ++ [rspWord 3 0 ((BitVec.ofNat 32 m).setWidth 64)])
        (failAt .truncatedStream m)
  | failed {oks : List RspWord} {e : DecError} {k : Nat} (hlen : m = oks.length + k + 1)
      (hok : ∀ r ∈ oks, rspStatus r = 0) :
      StreamAnswers m (oks ++ List.replicate (k + 2)
        (rspWord (statusCode (errStatus e)) 0 ((BitVec.ofNat 32 oks.length).setWidth 64)))
        (failAt (errStatus e) oks.length)

theorem StreamAnswers.length_eq {m : Nat} {rs : List RspWord} {d : DecodeResult}
    (h : StreamAnswers m rs d) : rs.length = m + 1 := by
  cases h with
  | ok hlen => exact hlen
  | truncated hlen => rw [List.length_append, hlen, List.length_singleton]
  | failed hlen =>
    rw [List.length_append, List.length_replicate, hlen]
    rfl

/-- `DECODE` run from `s` leaves the responses that the result of `decode` has, and nothing else. -/
def DecodeAnswered (s : State) (toks : List Token) : Prop :=
  ∃ rs, core.run (toks.length + 1) (s.presentAll (decodeSeq toks)) =
      .next { s with rsps := s.rsps ++ rs } ∧ StreamAnswers toks.length rs (decodeFn s.table toks)

/-- A stream that ends after its accepted symbols leaves the response of `DEC.END` as well. -/
theorem Accepted.run_end {s t : State} {toks : List Token} {rs : List RspWord}
    (h : Accepted s toks rs t) : core.run (toks.length + 1) (s.presentAll (decodeSeq toks)) =
      .next { s with rsps := s.rsps ++ (rs ++ [t.endResponse]) } := by
  have hend := (h.run_rest []).trans (run_decodeSeq_nil h.legal)
  rwa [List.append_nil, h.frame.cleared h.idle h.rsps] at hend

/-- A stream that ends with `OK` after its accepted symbols. -/
theorem Accepted.answered_ok {s t : State} {toks : List Token} {rs : List RspWord}
    (h : Accepted s toks rs t) {bytes : List Byte} (hcarries : CarriesBytes rs bytes)
    (hend : t.endResponse = rspWord 0 0 0) (hdec : decodeFn s.table toks = .ok bytes) :
    DecodeAnswered s toks := by
  refine ⟨_, h.run_end, ?_⟩
  rw [hdec, hend]
  exact .ok (by rw [List.length_append, h.length, List.length_singleton])
    (forall_ok_concat h.ok (rspStatus_rspWord _ _ _)) (hcarries.concat_none (rspBytes_empty _ _))

/-- A stream that fails at the symbol after its accepted ones. -/
theorem Accepted.answered_fail {s t : State} {toks : List Token} {rs : List RspWord}
    (h : Accepted s toks rs t) {tok : Token} {e : DecError}
    (hpush : exec (.decPush tok) t = .next (t.raise e)) {rest : List Token}
    (hdec : decodeFn s.table (toks ++ tok :: rest) = failAt (errStatus e) toks.length) :
    DecodeAnswered s (toks ++ tok :: rest) := by
  have hrun := (h.run_rest (tok :: rest)).trans (run_decodeSeq_raises rest hpush)
  rw [h.frame.cleared h.idle h.rsps, h.pos, ← h.length] at hrun
  refine ⟨_, hrun, ?_⟩
  rw [hdec, ← h.length]
  exact .failed (by rw [List.length_append, h.length, List.length_cons, Nat.add_assoc]) h.ok

/-! Runs of `Regular` symbols, and the bits held along them (R79). -/

/-- The block after the `Regular` symbols `gs`: it holds the bits that do not fill a byte, and its
responses carry the whole bytes. -/
structure Unpacked (s : State) (gs : List (BitVec 10)) (rs : List RspWord) (t : State) : Prop
    extends Accepted s (regularTokens s.table gs) rs t where
  phase_run : t.phase = phaseRun
  cnt : t.dcnt.toNat = 10 * gs.length % 8
  acc : t.dacc.toNat = bitsNumber (gs.map .regular) % 2 ^ (10 * gs.length % 8)
  carries : CarriesBytes rs (wholeBytes (gs.map .regular))

theorem unpacked_nil {s : State} (hl : s.Legal) (hidle : s.DecIdle) : Unpacked s [] [] s := by
  have ⟨hacc, hcnt, _, hdst, _⟩ := hidle
  exact
    { toAccepted := accepted_nil hl hidle
      phase_run := phase_of_dst (e := 0) (p := phaseRun) s hdst
      cnt := congrArg BitVec.toNat hcnt
      acc := congrArg BitVec.toNat hacc
      carries := carriesBytes_nil }

theorem regularTokens_concat (t : Table) (gs : List (BitVec 10)) (g : BitVec 10) :
    regularTokens t (gs ++ [g]) = regularTokens t gs ++ [fwd t (.regular g)] := by
  simp [regularTokens]

theorem clsWidth_le (c : Cls) : clsWidth c ≤ 10 := by
  cases c <;> decide

section
variable {s t : State} {gs : List (BitVec 10)} {rs : List RspWord}

/-- The low bits of the stream with one more symbol, as the block computes them from the bits it
holds. -/
theorem Unpacked.mod_concat (h : Unpacked s gs rs t) (c : SymCode) :
    (t.dacc.toNat * 2 ^ clsWidth (codeCls c) + (codeIdx c).toNat) %
        2 ^ ((t.dcnt.toNat + clsWidth (codeCls c)) % 8) = leftoverBits gs c := by
  have hmod : (10 * gs.length % 8 + clsWidth (codeCls c)) % 8 =
      (10 * gs.length + clsWidth (codeCls c)) % 8 := by omega
  rw [h.acc, h.cnt, append_mod (by omega), leftoverBits, bitsNumber_concat, hmod]

/-- The bytes of the stream with one more symbol: those of the bits held and the symbol are new. -/
theorem Unpacked.wholeBytes_concat (h : Unpacked s gs rs t) (c : SymCode) :
    wholeBytes (gs.map .regular ++ [c]) = wholeBytes (gs.map .regular) ++
      bytesOf (t.dacc.toNat * 2 ^ clsWidth (codeCls c) + (codeIdx c).toNat)
        (t.dcnt.toNat + clsWidth (codeCls c)) := by
  rw [wholeBytes_eq, bitsNumber_concat, bitsLength_append, bitsLength_singleton,
    bytesOf_append (codeIdx_lt c), bitsLength_regular, h.acc, h.cnt, wholeBytes_eq,
    bitsLength_regular]

/-- A symbol with a response that carries the new bytes. -/
theorem Unpacked.carries_concat (h : Unpacked s gs rs t) (c : SymCode) {r : RspWord}
    (hbytes : rspBytes r = bytesOf (t.dacc.toNat * 2 ^ clsWidth (codeCls c) + (codeIdx c).toNat)
      (t.dcnt.toNat + clsWidth (codeCls c))) :
    CarriesBytes (rs ++ [r]) (wholeBytes (gs.map .regular ++ [c])) := by
  rw [h.wholeBytes_concat c, ← hbytes]
  refine h.carries.concat fun i hle hlt => ?_
  have hw := clsWidth_le (codeCls c)
  rw [length_wholeBytes, bitsLength_regular] at hle hlt
  rw [hbytes, length_bytesOf, h.cnt] at hlt
  rw [h.length, length_regularTokens]
  omega

/-- One `Regular` symbol more. -/
theorem Unpacked.push_regular (h : Unpacked s gs rs t) (g : BitVec 10) :
    ∃ r u, Unpacked s (gs ++ [g]) (rs ++ [r]) u := by
  have hpush := exec_decPush_regular h.legal h.phase_run g
  have hacc := h.push hpush rfl (rspStatus_bytesRsp _)
  have hlen : (gs ++ [g]).length = gs.length + 1 := by simp
  have hlt : leftoverBits gs (.regular g) < 2 ^ 16 :=
    (Nat.mod_lt _ (Nat.two_pow_pos _)).trans_le (Nat.pow_le_pow_right (by decide) (by omega))
  rw [h.frame.table_eq, ← regularTokens_concat] at hacc
  refine ⟨_, _, hacc, h.phase_run, ?_, ?_, ?_⟩
  · rw [BitVec.toNat_ofNat, Nat.mod_eq_of_lt (by omega), h.cnt, Nat.mod_add_mod, hlen]
    rfl
  · rw [BitVec.toNat_ofNat]
    refine (congrArg (· % 2 ^ 16) (h.mod_concat (.regular g))).trans
      ((Nat.mod_eq_of_lt hlt).trans ?_)
    rw [hlen, List.map_append]
    rfl
  · rw [List.map_append]
    refine h.carries_concat (.regular g) (rspBytes_bytesRsp ?_)
    rw [length_bytesOf, h.cnt]
    omega

/-- The padding symbol of a stream: it fails where it leaves bits over, and else it is accepted and its
response carries the last byte (R80). -/
theorem Unpacked.push_pad (h : Unpacked s gs rs t) {c : SymCode} (hpad : isPad c = true) :
    (leftoverBits gs c ≠ 0 →
      exec (.decPush (fwd s.table c)) t = .next (t.raise .malformedPadding)) ∧
    (leftoverBits gs c = 0 → ∃ r u,
      Accepted s (regularTokens s.table gs ++ [fwd s.table c]) (rs ++ [r]) u ∧
      u.phase = phasePadded ∧ CarriesBytes (rs ++ [r]) (wholeBytes (gs.map .regular ++ [c]))) := by
  obtain ⟨-, -, hw⟩ := pushLooked_pad (s := t) hpad
  obtain ⟨hleft, hzero⟩ := exec_decPush_pad h.legal h.phase_run rfl hpad
  rw [h.mod_concat c, h.frame.table_eq] at hleft hzero
  refine ⟨hleft, fun h0 => ⟨_, _, h.push (hzero h0) rfl ?_, phase_of_dst _ rfl,
    h.carries_concat c (rspBytes_of_pad ?_)⟩⟩
  · split_ifs <;> exact rspStatus_rspWord _ _ _
  · have hcnt := h.cnt
    omega

end

/-- The pushes of `Regular` symbols from an idle context, by induction on the symbols. -/
theorem exists_unpacked (gs : List (BitVec 10)) {s : State} (hl : s.Legal) (hidle : s.DecIdle) :
    ∃ rs t, Unpacked s gs rs t := by
  induction gs using List.reverseRecOn with
  | nil => exact ⟨[], s, unpacked_nil hl hidle⟩
  | append_singleton gs g ih =>
    obtain ⟨rs, t, ht⟩ := ih
    obtain ⟨r, u, hu⟩ := ht.push_regular g
    exact ⟨rs ++ [r], u, hu⟩

/-! Every stream, by what follows its `Regular` symbols (R96). -/

/-- Nothing follows: `DEC.END` tells whether bits are left over. -/
theorem Unpacked.answered_end {s t : State} {gs : List (BitVec 10)} {rs : List RspWord}
    (h : Unpacked s gs rs t) : DecodeAnswered s (regularTokens s.table gs) := by
  have hdec := decodeFn_regularTokens s.table gs
  by_cases hcnt : t.dcnt = 0
  · have haligned : 10 * gs.length % 8 = 0 := by
      rw [← h.cnt, hcnt]
      rfl
    rw [if_neg (not_not.2 haligned)] at hdec
    exact h.answered_ok h.carries (endResponse_aligned h.phase_run hcnt) hdec
  · have hleft : 10 * gs.length % 8 ≠ 0 := by
      rw [← h.cnt]
      exact fun h0 => hcnt (BitVec.eq_of_toNat_eq h0)
    refine ⟨_, h.run_end, ?_⟩
    rw [hdec, if_pos hleft, endResponse_truncated h.phase_run hcnt, h.pos, length_regularTokens]
    exact .truncated (h.length.trans (length_regularTokens _ _)) h.ok

/-- An unknown symbol follows. -/
theorem Unpacked.answered_unknown {s t : State} {gs : List (BitVec 10)} {rs : List RspWord}
    (h : Unpacked s gs rs t) {tok : Token} (hmiss : rev s.table tok = none) (rest : List Token) :
    DecodeAnswered s (regularTokens s.table gs ++ tok :: rest) := by
  have hpush := exec_decPush_unknown h.legal h.phase_run
    (rev_eq_none_iff.1 (h.frame.table_eq.symm ▸ hmiss))
  refine h.answered_fail hpush ((decodeFn_unknown hmiss gs rest).trans ?_)
  rw [length_regularTokens]
  rfl

/-- A padding symbol follows, and fails, or ends the stream, or has a symbol after it, which fails. -/
theorem Unpacked.answered_pad {s t : State} {gs : List (BitVec 10)} {rs : List RspWord}
    (h : Unpacked s gs rs t) {c : SymCode} (hpad : isPad c = true) (rest : List Token) :
    DecodeAnswered s (regularTokens s.table gs ++ fwd s.table c :: rest) := by
  obtain ⟨hleft, hzero⟩ := h.push_pad hpad
  have hdec := (decodeFn_pad hpad gs rest).trans (decodePadded_regularTokens s.table gs c rest)
  by_cases h0 : leftoverBits gs c = 0
  · obtain ⟨r, u, hu, hphase, hcarries⟩ := hzero h0
    rw [if_neg (not_not.2 h0)] at hdec
    cases rest with
    | nil =>
      rw [if_neg (not_not.2 rfl)] at hdec
      exact hu.answered_ok hcarries (endResponse_padded hphase) hdec
    | cons tok rest =>
      rw [if_pos (List.cons_ne_nil _ _)] at hdec
      rw [List.append_cons] at hdec ⊢
      refine hu.answered_fail (exec_decPush_padded hu.legal hphase) (hdec.trans ?_)
      rw [List.length_append, length_regularTokens]
      rfl
  · rw [if_pos h0] at hdec
    refine h.answered_fail (hleft h0) (hdec.trans ?_)
    rw [length_regularTokens]
    rfl

theorem decodeAnswered (toks : List Token) {s : State} (hl : s.Legal) (hidle : s.DecIdle) :
    DecodeAnswered s toks := by
  obtain ⟨gs, hcases⟩ := exists_regular_prefix s.table toks
  obtain ⟨rs, t, ht⟩ := exists_unpacked gs hl hidle
  obtain rfl | ⟨tok, rest, rfl, hmiss | ⟨c, hpad, rfl⟩⟩ := hcases
  · exact ht.answered_end
  · exact ht.answered_unknown hmiss rest
  · exact ht.answered_pad hpad rest

/-! What the answers say of each response. -/

theorem status_getElem? {oks rs : List RspWord} (hok : ∀ r ∈ oks, rspStatus r = 0) {j : Nat}
    (hj : j < oks.length) : ((oks ++ rs)[j]?).map rspStatus = some 0 := by
  rw [List.getElem?_append_left hj, List.getElem?_eq_getElem hj, Option.map_some,
    hok _ (List.getElem_mem hj)]

theorem getElem?_append_replicate {oks : List RspWord} {r : RspWord} {k j : Nat}
    (hle : oks.length ≤ j) (hlt : j < oks.length + k) :
    (oks ++ List.replicate k r)[j]? = some r := by
  rw [List.getElem?_append_right hle, List.getElem?_replicate_of_lt (by omega)]

theorem status_of_error (e : DecError) : statusCode (errStatus e) = statusCode .unknownSymbol ∨
    statusCode (errStatus e) = statusCode .malformedPadding := by
  cases e
  · exact .inl rfl
  · exact .inr rfl

/-- Settles O42: every stream is answered as its result has it, and the clauses are read off the
responses. -/
theorem decodeStreamRealisesDecode : Obligations.DecodeStreamRealisesDecode := by
  intro toks s hl hidle
  obtain ⟨rs, hrun, hans⟩ := decodeAnswered toks hl hidle
  refine ⟨rs, hrun, hans.length_eq, ?_⟩
  generalize decodeFn s.table toks = d at hans
  cases hans with
  | ok hlen hok h => exact ⟨hok, h.out, fun j hj => h.placed j (by omega)⟩
  | truncated hlen hok =>
    refine ⟨?_, .inl ⟨rfl, rfl, fun j hj => status_getElem? hok (hlen ▸ hj)⟩⟩
    rw [← hlen, List.getElem?_concat_length]
    rfl
  | @failed oks e k hlen hok =>
    refine ⟨getElem?_append_replicate (by omega) (by omega), .inr ⟨status_of_error e, oks.length,
      by omega, rfl, fun j hj => status_getElem? hok hj, fun j hle hj => ?_⟩⟩
    exact getElem?_append_replicate hle (by omega)

end Sys2Proof.Machine

/-! ### The round trip through the ports (R98, R130) -/

namespace Sys2Proof.Machine

/-- What a host reads off the responses of a stream that all answer `OK`. -/
theorem hostDecode_of_ok {rs : List RspWord} (hne : rs ≠ []) (hok : ∀ r ∈ rs, rspStatus r = 0) :
    hostDecode rs = .ok (outBytes rs) := by
  rw [hostDecode, List.getLast?_eq_getLast_of_ne_nil hne]
  exact if_pos (hok _ (List.getLast_mem hne))

/-- Settles O44: the symbols that come out are those of the encoding, and a stream that `decode` accepts
is answered with `OK` and the bytes. -/
theorem blockRoundTrip : Obligations.BlockRoundTrip := by
  intro bs s hl henc hdec
  have hsyms := outSymbols_encRsps s.table bs
  obtain ⟨ds, hrun, hans⟩ := decodeAnswered (outSymbols (encRsps s.table bs)) hl hdec
  refine ⟨encRsps s.table bs, ds, run_encodeSeq bs hl henc, hrun, ?_⟩
  have hlen := hans.length_eq
  have hback := decodeOfEncodedBytesGivesThemBack s.table bs
  rw [← hsyms] at hback
  rw [hback] at hans
  obtain ⟨-, hok, hcarries⟩ := hans
  rw [hostDecode_of_ok (List.ne_nil_of_length_eq_add_one hlen) hok, hcarries.out]

end Sys2Proof.Machine

/-! ### Decode errors: raising, leaving and keeping the recorded one (R112, R114, R115) -/

namespace Sys2Proof.Machine

/-- A `DEC.PUSH` that enters `FAILED` is one that raised an error: the accepting arms of R78 end in
`RUN` or `PADDED`. -/
theorem decPush_enters_failed {tok : Token} {s t : State} (hs : s.phase ≠ phaseFailed)
    (h : exec (.decPush tok) s = .next t) (ht : t.phase = phaseFailed) : ∃ e, t = s.raise e := by
  obtain ⟨-, ⟨hp, -⟩ | ⟨-, rfl⟩ | ⟨-, -, rfl⟩ | ⟨-, -, rfl⟩ | ⟨-, -, n, d, rfl, -⟩ |
    ⟨-, -, acc, cnt, n, d, rfl, -⟩⟩ := decPush_next h
  · exact absurd hp hs
  · exact ⟨_, rfl⟩
  · exact ⟨_, rfl⟩
  · exact ⟨_, rfl⟩
  · exact absurd ht (by decide : phasePadded ≠ phaseFailed)
  · exact absurd ht hs

/-- The codes of the decode errors (R25). -/
theorem errCode_cases (e : DecError) : errCode e = 1 ∨ errCode e = 2 := by
  cases e
  · exact .inl rfl
  · exact .inr rfl

/-- Settles O33: the push raised an error, and what `raise` writes is written out. -/
theorem raisingAnErrorDoesExactlyThis : Obligations.RaisingAnErrorDoesExactlyThis := by
  intro tok s t hs h ht
  obtain ⟨e, rfl⟩ := decPush_enters_failed hs h ht
  refine ⟨errCode e, errCode_cases e, ?_⟩
  rw [setWidth_errCode]
  rfl

/-- In `FAILED` every command but `DEC.END` keeps the recorded error and its position: `DEC.PUSH` writes
no register there, and the others never write `DST` and `DEPOS`. -/
theorem exec_keeps_recorded_error {i : Instr} {s t : State} (hp : s.phase = phaseFailed)
    (hi : i ≠ .decEnd) (h : exec i s = .next t) : t.dst = s.dst ∧ t.depos = s.depos := by
  cases i with
  | decPush tok =>
    obtain rfl := exec_next_unique h (exec_decPush_failed (legal_of_exec_next h) hp)
    exact ⟨rfl, rfl⟩
  | decEnd => exact absurd rfl hi
  | encPush _ | encEnd | ridxLookup _ | rd _ | illegal _ =>
    obtain ⟨-, -, -, hrecord⟩ := exec_keeps_dec rfl h
    exact hrecord

/-- `DEC.END` in `FAILED` reports the recorded error once more (R84). -/
theorem decEnd_reports_recorded_error {s t : State} (hp : s.phase = phaseFailed)
    (h : exec .decEnd s = .next t) :
    t.rsps = s.rsps ++ [rspWord (s.err.setWidth 4) 0 (s.depos.setWidth 64)] := by
  obtain ⟨-, rfl⟩ := decEnd_next h
  rw [endResponse_failed hp]

/-- Settles O34, by what the step took from the ports: a waiting step stays in `FAILED`, and so does
every command that keeps the recorded error. -/
theorem onlyDecEndOrResetLeavesFailed : Obligations.OnlyDecEndOrResetLeavesFailed := by
  intro s t hp h hout
  rcases step_cases h with ⟨-, rfl⟩ | ⟨rest, hin, -⟩ | ⟨w, rest, hin, -, he⟩
  · exact absurd hp hout
  · exact .inl ⟨rest, hin⟩
  · have hend : decode w = .decEnd := by
      by_contra hne
      obtain ⟨hdst, -⟩ := exec_keeps_recorded_error (s := { s with inputs := rest }) hp hne he
      exact hout ((phase_congr hdst).trans hp)
    rw [hend] at he
    exact .inr ⟨w, rest, hin, hend, decEnd_leaves_idle he,
      decEnd_reports_recorded_error (s := { s with inputs := rest }) hp he⟩

/-- An encode command answers and moves the encode context as it does with the decode context cleared
(R115). -/
theorem encCmd_clearDec {i : Instr} (hi : isEncCmd i = true) {s t : State} (h : exec i s = .next t) :
    exec i s.clearDec = .next t.clearDec := by
  have hl := legal_of_exec_next h
  have hl' : s.clearDec.Legal := legal_clearDec hl.1
  cases i with
  | encPush b =>
    rw [exec_encPush_of hl] at h
    rw [exec_encPush_of hl', clearDec_ecnt]
    split_ifs at h ⊢ <;> (cases h; rfl)
  | encEnd =>
    obtain rfl := exec_next_unique h (exec_encEnd_of hl)
    exact exec_encEnd_of hl'
  | decPush _ | decEnd | ridxLookup _ | rd _ | illegal _ => cases hi

/-- Settles O35: a legal state answers every command, and no answer but that of `DEC.END` touches the
record. -/
theorem errorsDoNotNest : Obligations.ErrorsDoNotNest := by
  intro i s hl hp hi
  obtain ⟨t, h⟩ := exec_answers_of_legal i hl
  obtain ⟨hdst, hdepos⟩ := exec_keeps_recorded_error hp hi h
  refine ⟨t, h, hdst, hdepos, ?_, ?_, fun henc => encCmd_clearDec henc h⟩
  · rintro tok rfl
    obtain rfl := exec_next_unique h (exec_decPush_failed hl hp)
    rfl
  · rintro w rfl
    obtain rfl := exec_next_unique h (exec_illegal_of hl)
    rfl

end Sys2Proof.Machine

/-! ### The reset input, 70_reset_and_hazards.md (R121, R122, R124) -/

namespace Sys2Proof.Machine

/-- Settles O7: the step takes the reset input from the ports and then clears every register, the encode
context's and the decode context's; `resetRegs` asks nothing of the state it clears. -/
theorem resetInputClearsEveryRegister : Obligations.ResetInputClearsEveryRegister := by
  intro s rest hin
  have hclear : ({ s with inputs := rest } : State).resetRegs =
      { eacc := 0, ecnt := 0, dacc := 0, dcnt := 0, dpos := 0, dst := 0, depos := 0,
        table := s.table, inputs := rest, rsps := s.rsps } := rfl
  exact (step_of_reset hin).trans (congrArg _ hclear)

end Sys2Proof.Machine

/-! ### The register states outside R20, R23 and R27, 93_implementation_defined.md (U8) -/

namespace Sys2Proof.Machine

/-- Settles O15: a command is refused outside the legal states, and in a legal state one follows, which is
no refusal. -/
theorem unreachableStatesAreRefused : Obligations.UnreachableStatesAreRefused := by
  intro i s
  rcases exec_outcome i s with ⟨hnot, hrefused⟩ | ⟨hl, t, hnext⟩
  · exact iff_of_true hrefused hnot
  · have hne : exec i s ≠ .refused .unreachableState := by
      rw [hnext]
      exact nofun
    exact iff_of_false hne (not_not_intro hl)

end Sys2Proof.Machine
